-- ==== Sys2Proof/Word.lean ====
section
/-! DEFINITION. The bit vectors of the codec core and nothing else: bytes, groups, axis ids,
function codes, decoded values and argument fields (rules R7, R8, R11). -/

namespace Sys2Proof

/-- A byte, bit 7 its most significant bit (R11). -/
abbrev Byte := BitVec 8

/-- A 7-bit group of the variable-length integer (R100). -/
abbrev Group := BitVec 7

/-- The axis id of a packet, 7 bits (R61, AXIS_BITS of R7). -/
abbrev Axis := BitVec 7

/-- A function code, 5 bits (R62, FC_BITS of R7). -/
abbrev Fc := BitVec 5

/-- The length code of a control byte, 2 bits (R62, LEN_BITS of R7). -/
abbrev LengthCode := BitVec 2

/-- A decoded value, and the argument port of ENCODE: 32 bits, two's complement (R8, D4, D5). -/
abbrev Value := BitVec 32

/-- The encoder's canonical argument field, 28 bits (R7, R151). -/
abbrev ArgField := BitVec 28

end Sys2Proof
end

