-- ==== Sys2Proof/Config.lean ====
section
/-! DEFINITION. What is fixed when a block is built: the constants of rule R7, the open parameter
UNSIGNED_FC of rule R8, and the free values that rule R34 leaves unspecified. An opaque constant here
has no body: no proof can see a value of it. -/

namespace Sys2Proof.Config

/-- BUF_CAP, the capacity of the accumulation buffer in bytes (R7). -/
def bufCap : Nat := 8

/-- MIN_LEN, the shortest packet in bytes (R7). -/
def minLen : Nat := 4

/-- MAX_LEN, the longest packet in bytes (R7). -/
def maxLen : Nat := 7

/-- MAX_GROUPS, the most data bytes in a packet (R7). -/
def maxGroups : Nat := 4

/-- POS_FC, the function code of the absolute-position report (R7). -/
def posFc : Fc := 0x1B

/-- UNSIGNED_FC before its one constraint: which function codes the Command Descriptor calls
unsigned is open (R8, R29, R174, D11; log 3). -/
opaque unsignedFc : Fc → Bool

/-- Membership in UNSIGNED_FC. POS_FC is never a member (R8, R174). -/
def decodesUnsigned (fc : Fc) : Bool := decide (fc ≠ posFc) && unsignedFc fc

/-- The unspecified LAST_AXIS of the `n`-th reset (R34, U2; log 1). -/
opaque freeAxis : Nat → Axis

/-- The unspecified LAST_FC of the `n`-th reset (R34, U2; log 1). -/
opaque freeFc : Nat → Fc

/-- The unspecified LAST_VALUE of the `n`-th reset (R34, U2; log 1). -/
opaque freeValue : Nat → Value

/-- What entry `i` of BUF holds after the `n`-th reset until it is written (R34, U1; log 2). -/
opaque freeByte : Nat → Nat → Byte

end Sys2Proof.Config
end

