-- ==== Sys2Proof/Syntax.lean ====
section
/-! DEFINITION. The syntax of the block's operations: one constructor of `Instr` for each of the 42
rows of the opcode table (rules R9, R66, R70), and the host's moves that carry them (rule R30). -/

namespace Sys2Proof

/-- The two forms of a function-code row. The spec gives each code a meaning on transmit and one on
receive and restricts neither direction (R66, R210, R211). -/
inductive PktForm (α : Type) where
  /-- The host asks for the packet: a command `MNEMONIC axis, operand` (R201), or a plain ENCODE of
  a code that has no command (R210, R211). -/
  | send (axis : Axis) (operand : α)
  /-- The packet arrives from the wire: its axis id, its groups, most significant first, and the
  seven bits of its checksum byte (R60). -/
  | recv (axis : Axis) (data : List Group) (check : BitVec 7)
  deriving DecidableEq, Repr

/-- The operations of the block, one constructor per row of `opcode_table.json`. -/
inductive Instr where
  /-- RESET_ORIGIN, function code 0x00 (R192). -/
  | resetOrigin (form : PktForm Unit)
  /-- MOVE_ABS, function code 0x01 (R190). -/
  | moveAbs (form : PktForm Value)
  /-- FC_02, function code 0x02 (R211). -/
  | fc02 (form : PktForm Value)
  /-- FC_03, function code 0x03 (R211). -/
  | fc03 (form : PktForm Value)
  /-- FC_04, function code 0x04 (R211). -/
  | fc04 (form : PktForm Value)
  /-- FC_05, function code 0x05 (R211). -/
  | fc05 (form : PktForm Value)
  /-- FC_06, function code 0x06 (R211). -/
  | fc06 (form : PktForm Value)
  /-- SET_CONFIG, function code 0x07 (R198). -/
  | setConfig (form : PktForm Byte)
  /-- FC_08, function code 0x08 (R211). -/
  | fc08 (form : PktForm Value)
  /-- FC_09, function code 0x09 (R211). -/
  | fc09 (form : PktForm Value)
  /-- ROTATE, function code 0x0A (R191). -/
  | rotate (form : PktForm Value)
  /-- FC_0B, function code 0x0B (R211). -/
  | fc0B (form : PktForm Value)
  /-- FC_0C, function code 0x0C (R211). -/
  | fc0C (form : PktForm Value)
  /-- FC_0D, function code 0x0D (R211). -/
  | fc0D (form : PktForm Value)
  /-- PARAM_READ, function code 0x0E (R199). -/
  | paramRead (form : PktForm Byte)
  /-- FC_0F, function code 0x0F (R211). -/
  | fc0F (form : PktForm Value)
  /-- SET_MAIN_GAIN, function code 0x10 (R195). -/
  | setMainGain (form : PktForm Value)
  /-- SET_SPEED_GAIN, function code 0x11 (R196). -/
  | setSpeedGain (form : PktForm Value)
  /-- SET_INT_GAIN, function code 0x12 (R197). -/
  | setIntGain (form : PktForm Value)
  /-- FC_13, function code 0x13 (R211). -/
  | fc13 (form : PktForm Value)
  /-- SET_MAX_SPEED, function code 0x14 (R193). -/
  | setMaxSpeed (form : PktForm Value)
  /-- SET_MAX_ACCEL, function code 0x15 (R194). -/
  | setMaxAccel (form : PktForm Value)
  /-- FC_16, function code 0x16 (R211). -/
  | fc16 (form : PktForm Value)
  /-- FC_17, function code 0x17 (R211). -/
  | fc17 (form : PktForm Value)
  /-- FC_18, function code 0x18 (R211). -/
  | fc18 (form : PktForm Value)
  /-- FC_19, function code 0x19 (R211). -/
  | fc19 (form : PktForm Value)
  /-- FC_1A, function code 0x1A (R211). -/
  | fc1A (form : PktForm Value)
  /-- ABS_POS_REPORT, function code 0x1B (R210). -/
  | absPosReport (form : PktForm Value)
  /-- FC_1C, function code 0x1C (R211). -/
  | fc1C (form : PktForm Value)
  /-- FC_1D, function code 0x1D (R211). -/
  | fc1D (form : PktForm Value)
  /-- FC_1E, function code 0x1E (R211). -/
  | fc1E (form : PktForm Value)
  /-- FC_1F, function code 0x1F (R211). -/
  | fc1F (form : PktForm Value)
  /-- RESET, a pulse of `rst` (R270). -/
  | reset
  /-- FEED of one received byte (R120). -/
  | feed (b : Byte)
  /-- ENCODE of a function code, an axis port value and an argument (R150; widths D5, D6). -/
  | encode (fc : Fc) (axis : Byte) (arg : Value)
  /-- DECODE of the packet of length `len` held in BUF; internal, called by FEED (R170, D16). -/
  | decode (len : Nat)
  /-- CHK_GEN of a byte sequence (R91). -/
  | chkGen (p : List Byte)
  /-- CHK_VERIFY of a byte sequence and a received checksum byte (R92). -/
  | chkVerify (p : List Byte) (c : Byte)
  /-- VLI_PACK of a 28-bit field (R101). -/
  | vliPack (a : ArgField)
  /-- VLI_UNPACK_S of 1 to 4 groups (R103). -/
  | vliUnpackS (g : List Group)
  /-- VLI_UNPACK_U of 1 to 4 groups (R104). -/
  | vliUnpackU (g : List Group)
  /-- CLAMP of a 32-bit two's-complement integer (R200). -/
  | clamp (x : Value)
  deriving DecidableEq, Repr

/-- The ENCODE port: cmd_fc, cmd_axis, cmd_arg (R30). -/
structure CmdPort where
  fc : Fc
  axis : Byte
  arg : Value
  deriving DecidableEq, Repr

/-- One set of pulses on the input ports (R30): `rst`, `cmd_valid` with its operands, `rx_valid`
with its byte. A valid line that is 0 is an absent operand. -/
structure Ports where
  rst : Bool
  cmd : Option CmdPort
  rx : Option Byte
  deriving DecidableEq, Repr

/-- One move of the host (R284; log 4). -/
inductive Request where
  /-- Pulses of the input ports, the three-bit vector of R70 with its operands. -/
  | ports (p : Ports)
  /-- A run of received bytes, in arrival order (R40, R276). -/
  | rx (bytes : List Byte)
  /-- A command of the command layer by its function code, its operand in a 32-bit word (R201). -/
  | command (fc : Fc) (axis : Axis) (operand : Value)
  deriving DecidableEq, Repr

end Sys2Proof
end

