-- ==== Sys2Proof/WellFormed.lean ====
section
/-! DEFINITION. Which instructions have the operands their rules state: 1 to 4 groups in a packet
(rule R60) and in an unpacker (rules R103, R104), and a packet length of 4 to 7 for DECODE (rule
R180). Every other bound is a width of the syntax. -/

namespace Sys2Proof

/-- A sequence of 1 to 4 groups (R60, R103, R104). -/
def groupsOk (g : List Group) : Bool := decide (1 ≤ g.length ∧ g.length ≤ Config.maxGroups)

/-- A packet length DECODE has a meaning for (R180). -/
def lengthOk (len : Nat) : Bool := decide (Config.minLen ≤ len ∧ len ≤ Config.maxLen)

/-- A packet received has 1 to 4 groups; a packet asked for has nothing to check. -/
def PktForm.wellFormed {α : Type} : PktForm α → Bool
  | .send _ _ => true
  | .recv _ data _ => groupsOk data

/-- The operands are those the instruction's rule states. -/
def Instr.wellFormed : Instr → Bool
  | .resetOrigin form => form.wellFormed
  | .moveAbs form => form.wellFormed
  | .fc02 form => form.wellFormed
  | .fc03 form => form.wellFormed
  | .fc04 form => form.wellFormed
  | .fc05 form => form.wellFormed
  | .fc06 form => form.wellFormed
  | .setConfig form => form.wellFormed
  | .fc08 form => form.wellFormed
  | .fc09 form => form.wellFormed
  | .rotate form => form.wellFormed
  | .fc0B form => form.wellFormed
  | .fc0C form => form.wellFormed
  | .fc0D form => form.wellFormed
  | .paramRead form => form.wellFormed
  | .fc0F form => form.wellFormed
  | .setMainGain form => form.wellFormed
  | .setSpeedGain form => form.wellFormed
  | .setIntGain form => form.wellFormed
  | .fc13 form => form.wellFormed
  | .setMaxSpeed form => form.wellFormed
  | .setMaxAccel form => form.wellFormed
  | .fc16 form => form.wellFormed
  | .fc17 form => form.wellFormed
  | .fc18 form => form.wellFormed
  | .fc19 form => form.wellFormed
  | .fc1A form => form.wellFormed
  | .absPosReport form => form.wellFormed
  | .fc1C form => form.wellFormed
  | .fc1D form => form.wellFormed
  | .fc1E form => form.wellFormed
  | .fc1F form => form.wellFormed
  | .reset => true
  | .feed _ => true
  | .encode _ _ _ => true
  | .decode len => lengthOk len
  | .chkGen _ => true
  | .chkVerify _ _ => true
  | .vliPack _ => true
  | .vliUnpackS g => groupsOk g
  | .vliUnpackU g => groupsOk g
  | .clamp _ => true

end Sys2Proof
end

