-- ==== Sys2Proof/Decode.lean ====
section
/-! DEFINITION. From the host's moves to instructions and back: the packet format (rules R60 to R65,
R67), the function-code table (rule R66), the operation-select vector (rule R70, D3) and the command
layer's moves (rule R201). The decoder is total; the encoder after it is written from the same
tables. -/

namespace Sys2Proof

/-- Bit 7 of a wire byte: 0 marks an address byte, 1 every other byte (R61, R65). -/
def framingBit (b : Byte) : Bool := b.getLsbD 7

/-- Bits 6..0 of a byte: an axis id, a group or the compared bits of a checksum. -/
def low7 (b : Byte) : BitVec 7 := b.setWidth 7

/-- Bits 4..0 of the control byte, the function code (R62). -/
def controlFc (b : Byte) : Fc := b.setWidth 5

/-- Bits 6..5 of the control byte, the length code (R62). -/
def controlLc (b : Byte) : LengthCode := (b >>> 5).setWidth 2

/-- The address byte of an axis id: bit 7 is 0 (R61). -/
def addressByte (axis : Axis) : Byte := axis.setWidth 8

/-- The control byte: bit 7 is 1, the length code in bits 6..5, the function code below (R62). -/
def controlByte (lc : LengthCode) (fc : Fc) : Byte := 0x80 ||| (lc.setWidth 8 <<< 5) ||| fc.setWidth 8

/-- A data byte, or a checksum byte, with its seven bits: bit 7 is 1 (R63, R64). -/
def dataByte (g : Group) : Byte := 0x80 ||| g.setWidth 8

/-- The length code of a packet with `n` data bytes: L - 4 = n - 1 (R60, R62). -/
def lengthCodeOf (n : Nat) : LengthCode := BitVec.ofNat 2 (n - 1)

/-- How many data bytes a packet of this length code has (R60, R67). -/
def groupCountOf (lc : LengthCode) : Nat := lc.toNat + 1

/-- The bytes of a packet in wire order (R60). -/
def packetBytes (fc : Fc) (axis : Axis) (data : List Group) (check : BitVec 7) : List Byte :=
  addressByte axis :: controlByte (lengthCodeOf data.length) fc :: (data.map dataByte ++ [dataByte check])

/-- The table of R66: the row of a function code, given the form in each of the three operand shapes
(none, 8 bits, 32 bits). -/
def Instr.ofFunctionCode (fc : Fc) (unit : PktForm Unit) (byte : PktForm Byte) (word : PktForm Value) :
    Instr :=
  match fc.toNat with
  | 0 => .resetOrigin unit
  | 1 => .moveAbs word
  | 2 => .fc02 word
  | 3 => .fc03 word
  | 4 => .fc04 word
  | 5 => .fc05 word
  | 6 => .fc06 word
  | 7 => .setConfig byte
  | 8 => .fc08 word
  | 9 => .fc09 word
  | 10 => .rotate word
  | 11 => .fc0B word
  | 12 => .fc0C word
  | 13 => .fc0D word
  | 14 => .paramRead byte
  | 15 => .fc0F word
  | 16 => .setMainGain word
  | 17 => .setSpeedGain word
  | 18 => .setIntGain word
  | 19 => .fc13 word
  | 20 => .setMaxSpeed word
  | 21 => .setMaxAccel word
  | 22 => .fc16 word
  | 23 => .fc17 word
  | 24 => .fc18 word
  | 25 => .fc19 word
  | 26 => .fc1A word
  | 27 => .absPosReport word
  | 28 => .fc1C word
  | 29 => .fc1D word
  | 30 => .fc1E word
  | _ => .fc1F word

/-- The row of a packet received from the wire. -/
def Instr.received (fc : Fc) (axis : Axis) (data : List Group) (check : BitVec 7) : Instr :=
  .ofFunctionCode fc (.recv axis data check) (.recv axis data check) (.recv axis data check)

/-- The row of a command asked for by the host. -/
def Instr.commanded (fc : Fc) (axis : Axis) (operand : Value) : Instr :=
  .ofFunctionCode fc (.send axis ()) (.send axis (operand.setWidth 8)) (.send axis operand)

/-- The width of a command's operand: none for RESET_ORIGIN (R192), 8 bits for SET_CONFIG and
PARAM_READ (R198, R199, D20), 32 bits otherwise. -/
def operandBits (fc : Fc) : Nat :=
  match fc.toNat with
  | 0x00 => 0
  | 0x07 => 8
  | 0x0E => 8
  | _ => 32

/-- Why a move of the host has no instruction. -/
inductive DecodeError where
  /-- A command's operand does not fit the command's operand width (log 7). -/
  | operandTooWide
  deriving DecidableEq, Repr

/-- What the decoder reads from a move of the host. -/
inductive Decoded where
  /-- The move's first instruction, and what is left of the move. -/
  | run (i : Instr) (rest : Option Request)
  /-- Nothing is performed: no pulse (R70), no byte. -/
  | idle
  /-- No port can carry the move. -/
  | rejected (e : DecodeError)
  deriving DecidableEq, Repr

/-- The instruction a move starts with. -/
def Decoded.instr : Decoded → Option Instr
  | .run i _ => some i
  | .idle => none
  | .rejected _ => none

/-- What is left of a set of pulses. -/
def restPorts (p : Ports) : Option Request :=
  if p.rst || p.cmd.isSome || p.rx.isSome then some (.ports p) else none

/-- The operation-select vector: RESET first, then FEED, then ENCODE (R70, D3). -/
def decodePorts (p : Ports) : Decoded :=
  if p.rst then .run .reset (restPorts { p with rst := false })
  else match p.rx with
    | some b => .run (.feed b) (restPorts { p with rx := none })
    | none =>
      match p.cmd with
      | some c => .run (.encode c.fc c.axis c.arg) none
      | none => .idle

/-- What is left of a run of received bytes. -/
def restRx : List Byte → Option Request
  | [] => none
  | b :: bytes => some (.rx (b :: bytes))

/-- A whole packet after its address and control bytes: as many bytes with bit 7 set as the length
code asks for, groups first, the checksum last (R60, R67). -/
def splitBody (n : Nat) (bytes : List Byte) : Option (List Group × BitVec 7 × List Byte) :=
  match n, bytes with
  | _, [] => none
  | 0, c :: rest => if framingBit c then some ([], low7 c, rest) else none
  | n + 1, d :: rest =>
    if framingBit d then
      match splitBody n rest with
      | some (data, check, rest') => some (low7 d :: data, check, rest')
      | none => none
    else none

/-- A run of received bytes: the packet it starts with, or else a FEED of its first byte (R60, R120;
log 6). -/
def decodeRx : List Byte → Decoded
  | [] => .idle
  | [b] => .run (.feed b) none
  | a :: c :: rest =>
    if framingBit a = false ∧ framingBit c = true then
      match splitBody (groupCountOf (controlLc c)) rest with
      | some (data, check, rest') => .run (.received (controlFc c) (low7 a) data check) (restRx rest')
      | none => .run (.feed a) (restRx (c :: rest))
    else .run (.feed a) (restRx (c :: rest))

/-- A command of the command layer (R201): its operand must fit the command's operand width. -/
def decodeCommand (fc : Fc) (axis : Axis) (operand : Value) : Decoded :=
  if operand.toNat < 2 ^ operandBits fc then .run (.commanded fc axis operand) none
  else .rejected .operandTooWide

/-- The instruction a move of the host starts with, and what is left of the move. -/
def decode : Request → Decoded
  | .ports p => decodePorts p
  | .rx bytes => decodeRx bytes
  | .command fc axis operand => decodeCommand fc axis operand

/-- The move of a function-code row: a command, or the packet's bytes. -/
def encodeForm {α : Type} (fc : Fc) (toWord : α → Value) : PktForm α → Request
  | .send axis operand => .command fc axis (toWord operand)
  | .recv axis data check => .rx (packetBytes fc axis data check)

/-- The move that stands for an instruction. A unit has none: it is an internal function that no
encoding selects (R70). -/
def encode : Instr → Option Request
  | .resetOrigin form => some (encodeForm 0x00 (fun _ => 0) form)
  | .moveAbs form => some (encodeForm 0x01 id form)
  | .fc02 form => some (encodeForm 0x02 id form)
  | .fc03 form => some (encodeForm 0x03 id form)
  | .fc04 form => some (encodeForm 0x04 id form)
  | .fc05 form => some (encodeForm 0x05 id form)
  | .fc06 form => some (encodeForm 0x06 id form)
  | .setConfig form => some (encodeForm 0x07 (fun x => x.setWidth 32) form)
  | .fc08 form => some (encodeForm 0x08 id form)
  | .fc09 form => some (encodeForm 0x09 id form)
  | .rotate form => some (encodeForm 0x0A id form)
  | .fc0B form => some (encodeForm 0x0B id form)
  | .fc0C form => some (encodeForm 0x0C id form)
  | .fc0D form => some (encodeForm 0x0D id form)
  | .paramRead form => some (encodeForm 0x0E (fun x => x.setWidth 32) form)
  | .fc0F form => some (encodeForm 0x0F id form)
  | .setMainGain form => some (encodeForm 0x10 id form)
  | .setSpeedGain form => some (encodeForm 0x11 id form)
  | .setIntGain form => some (encodeForm 0x12 id form)
  | .fc13 form => some (encodeForm 0x13 id form)
  | .setMaxSpeed form => some (encodeForm 0x14 id form)
  | .setMaxAccel form => some (encodeForm 0x15 id form)
  | .fc16 form => some (encodeForm 0x16 id form)
  | .fc17 form => some (encodeForm 0x17 id form)
  | .fc18 form => some (encodeForm 0x18 id form)
  | .fc19 form => some (encodeForm 0x19 id form)
  | .fc1A form => some (encodeForm 0x1A id form)
  | .absPosReport form => some (encodeForm 0x1B id form)
  | .fc1C form => some (encodeForm 0x1C id form)
  | .fc1D form => some (encodeForm 0x1D id form)
  | .fc1E form => some (encodeForm 0x1E id form)
  | .fc1F form => some (encodeForm 0x1F id form)
  | .reset => some (.ports ⟨true, none, none⟩)
  | .feed b => some (.ports ⟨false, none, some b⟩)
  | .encode fc axis arg => some (.ports ⟨false, some ⟨fc, axis, arg⟩, none⟩)
  | .decode _ => none
  | .chkGen _ => none
  | .chkVerify _ _ => none
  | .vliPack _ => none
  | .vliUnpackS _ => none
  | .vliUnpackU _ => none
  | .clamp _ => none

/-- A word of the opcode table as a move of the host (log 6). Sixteen bits are the header of R70,
the address byte in bits 15..8; the operand bits above it, the groups and the checksum, are 0, and
bit 7 of their bytes is the format's fixed 1 (R63, R64). Three bits, in one byte, are the pulses
rst, cmd_valid, rx_valid, with operands of 0. -/
def tableRequest (nbits w : Nat) : Option Request :=
  if nbits = 16 ∧ w < 2 ^ 16 then
    let control : Byte := BitVec.ofNat 8 w
    some (.rx (BitVec.ofNat 8 (w / 2 ^ 8) :: control ::
      List.replicate (groupCountOf (controlLc control) + 1) (dataByte 0)))
  else if (nbits = 3 ∨ nbits = 8) ∧ w < 2 ^ 3 then
    some (.ports
      ⟨w.testBit 2, if w.testBit 1 then some ⟨0, 0, 0⟩ else none, if w.testBit 0 then some 0 else none⟩)
  else none

/-- The instruction the decoder reads from a word of the opcode table. -/
def decodeTableWord (nbits w : Nat) : Option Instr :=
  match tableRequest nbits w with
  | some r => (decode r).instr
  | none => none

end Sys2Proof
end

