-- ==== Sys2Proof/Machine/State.lean ====
section
/-! DEFINITION. The state of the block (rules R20 to R31), the ways a step can stop, and the state
right after reset (rule R34). -/

namespace Sys2Proof.Machine

/-- BUF as a sparse byte memory: (index, byte) pairs in canonical form (R40, R41; log 2). -/
abbrev Memory := List Host.Cell

/-- STATUS, the most recent decode outcome (R24, D7). The code 3 is never produced (R24, U6). -/
inductive Status where
  /-- No DECODE has run since RESET. -/
  | pending
  /-- The most recent DECODE passed its checksum. -/
  | success
  /-- The most recent DECODE failed its checksum. -/
  | checksumFailed
  deriving DecidableEq, Repr

/-- A report event (R246). -/
inductive Event where
  /-- NONE: no report. -/
  | none
  /-- POS: the absolute-position report, which carries the value alone. -/
  | pos (value : Value)
  /-- GEN: the generic report. -/
  | gen (axis : Axis) (fc : Fc) (value : Value)
  /-- CSFAIL: the packet failed its checksum. -/
  | csfail
  deriving DecidableEq, Repr

/-- The output of a combinational unit evaluated on its own (R9; log 9). -/
inductive UnitOut where
  /-- CHK_GEN gives a byte. -/
  | byte (b : Byte)
  /-- CHK_VERIFY gives a bit. -/
  | bit (b : Bool)
  /-- VLI_PACK gives 1 to 4 groups. -/
  | groups (g : List Group)
  /-- VLI_UNPACK_S, VLI_UNPACK_U and CLAMP give a 32-bit value. -/
  | value (v : Value)
  deriving DecidableEq, Repr

/-- The state of one block: the session state of R20, the histories of R31, and three fields of the
model's own (`inputs`, `freeCount`, `unitOut`). -/
structure State where
  /-- COUNT, 4 bits, values 0..8 (R22). -/
  count : BitVec 4
  /-- DLEN, 3 bits, values 0, 4, 5, 6, 7 (R23). -/
  dlen : BitVec 3
  /-- STATUS (R24). -/
  status : Status
  /-- LAST_AXIS (R25). -/
  lastAxis : Axis
  /-- LAST_FC (R26). -/
  lastFc : Fc
  /-- LAST_VALUE (R27). -/
  lastValue : Value
  /-- BUF[0..7] (R21). An index with no entry has not been written since RESET. -/
  buf : Memory
  /-- The TX stream since power-on, first byte first (R31). -/
  tx : List Byte
  /-- The event stream since power-on, one entry per FEED (R31; log 8). -/
  events : List Event
  /-- Outputs of units evaluated on their own, first first (log 9). -/
  unitOut : List UnitOut
  /-- The host's moves still to be taken, oldest first (log 4). -/
  inputs : List Request
  /-- How many resets have drawn unspecified values (log 1). -/
  freeCount : Nat
  deriving DecidableEq, Repr

/-- The block has no fault: it never aborts and never raises (R245; log 14). Nothing raises one. -/
inductive Fault : Type
  deriving DecidableEq, Repr

/-- Why an instruction has no next state. -/
inductive Refusal where
  /-- Raised by `exec` for an instruction the model has no meaning for. Safe: the run stops. -/
  | notModelled (mnemonic : String)
  /-- Raised by DECODE used other than by FEED with L = DLEN, or with L outside 4..7 (R180, D16,
  U13; log 10). Safe: the run stops. -/
  | decodeOutsideFeed
  /-- Raised by an unpacker given other than 1 to 4 groups, and by a received packet that does not
  have 1 to 4 groups (R60, R103, R104; log 11). Safe: the run stops. -/
  | operandsOutsideDomain
  /-- Raised by `step` for a move of the host no port can carry (log 7). Safe: the run stops. -/
  | undecodable (e : DecodeError)
  deriving DecidableEq, Repr

/-- The outcome of an operation. -/
abbrev Result := Host.Outcome State Fault Refusal

/-- The state at power-on, which is the state after RESET (R34, R272, D24). The registers the spec
leaves unspecified hold the free values of draw 0 (D9, U2; log 1), BUF lists nothing (U1; log 2), and
the histories are empty (C11). -/
def State.reset : State where
  count := 0
  dlen := 0
  status := .pending
  lastAxis := Config.freeAxis 0
  lastFc := Config.freeFc 0
  lastValue := Config.freeValue 0
  buf := []
  tx := []
  events := []
  unitOut := []
  inputs := []
  freeCount := 1

end Sys2Proof.Machine
end

