-- ==== Sys2Proof/Machine/Flags.lean ====
section
/-! DEFINITION. The checksum unit (rules R90 to R92), and the numbers by which the one status flag and
the event kinds are read on the ports (rules R24, R30, R246). The block has no other flag (rule R28). -/

namespace Sys2Proof.Machine

/-- SUM8: the sum of the bytes modulo 256, carries discarded (R90). -/
def sum8 : List Byte → Byte
  | [] => 0
  | b :: p => b + sum8 p

/-- CHK_GEN: bit 7 is 1, bits 6..0 are those of the sum (R91). -/
def chkGen (p : List Byte) : Byte := 0x80 ||| (sum8 p &&& 0x7F)

/-- CHK_VERIFY: the low seven bits of the sum and of the received checksum agree (R92). -/
def chkVerify (p : List Byte) (c : Byte) : Bool := decide (low7 (sum8 p) = low7 c)

/-- STATUS as the port `status` shows it (R24, R30, D7). -/
def Status.code : Status → BitVec 2
  | .pending => 0
  | .success => 1
  | .checksumFailed => 2

/-- An event's kind as the port `ev_kind` shows it (R30, R246, D13). -/
def Event.kind : Event → BitVec 2
  | .none => 0
  | .pos _ => 1
  | .gen _ _ _ => 2
  | .csfail => 3

end Sys2Proof.Machine
end

