-- ==== Sys2Proof/Machine/Operands.lean ====
section
/-! DEFINITION. How operands are formed: the variable-length integer unit (rules R100 to R104), the
choice of signed or unsigned (rule R174) and the clamp of setter inputs (rule R200). -/

namespace Sys2Proof.Machine

/-- Bit 6 of a group, its sign bit in a signed reading (R101, R103). -/
def groupSign (g : Group) : Bool := g.getLsbD 6

/-- The top group `g` only repeats the sign of the group `h` below it (R101). -/
def redundantGroup (g h : Group) : Bool :=
  decide ((g = 0x00 ∧ groupSign h = false) ∨ (g = 0x7F ∧ groupSign h = true))

/-- Drop top groups while they are redundant; at least one group remains (R101). -/
def trimGroups : List Group → List Group
  | g :: h :: rest => if redundantGroup g h then trimGroups (h :: rest) else g :: h :: rest
  | [g] => [g]
  | [] => []

/-- The four groups of the 28-bit field, most significant first (R100). -/
def splitGroups (a : ArgField) : List Group :=
  [a.extractLsb' 21 7, a.extractLsb' 14 7, a.extractLsb' 7 7, a.extractLsb' 0 7]

/-- VLI_PACK (R101). -/
def vliPack (a : ArgField) : List Group := trimGroups (splitGroups a)

/-- Shift the accumulated value left by 7 and OR in the next group (R103, R104). -/
def shiftIn (v : Value) (g : Group) : Value := (v <<< 7) ||| g.setWidth 32

/-- VLI_UNPACK_S of the groups `g, rest`: bit 6 of the first group is the sign (R103). -/
def vliUnpackS (g : Group) (rest : List Group) : Value := rest.foldl shiftIn (g.signExtend 32)

/-- VLI_UNPACK_U of the groups `g, rest`: bit 6 of the first group is a data bit (R104). -/
def vliUnpackU (g : Group) (rest : List Group) : Value := rest.foldl shiftIn (g.setWidth 32)

/-- The value of a packet's groups, unsigned or signed as the Command Descriptor says for its
function code (R173, R174). -/
def decodeValue (fc : Fc) (g : Group) (rest : List Group) : Value :=
  if Config.decodesUnsigned fc then vliUnpackU g rest else vliUnpackS g rest

/-- CLAMP to [1, 127], signed comparison (R200). -/
def clampSetter (x : Value) : Value :=
  if x.slt 1 then 1 else if (127 : Value).slt x then 127 else x

end Sys2Proof.Machine
end

