-- ==== Sys2Proof/Machine/Ops.lean ====
section
/-! DEFINITION. The shared operations: the accumulation buffer (rules R21, R40, R41), the named updates
of the state, raising a report event (rules R246, R251, R252), RESET (rule R270), ENCODE (rule R150),
DECODE (rule R170), FEED (rule R120), and taking the host's next move (rule R284). -/

namespace Sys2Proof.Machine

/-! ### The buffer -/

/-- What an index with no entry holds: no value (R34, U1; log 2). -/
def Memory.unlisted : Option Byte := none

/-- The byte written at an index, if one has been. -/
def Memory.get? : Memory → Nat → Option Byte
  | [], _ => Memory.unlisted
  | (k, b) :: m, i => if k = i then some b else Memory.get? m i

/-- Write one byte, keeping the indices strictly rising. -/
def Memory.set : Memory → Nat → Byte → Memory
  | [], i, b => [(i, b)]
  | (k, c) :: m, i, b =>
    if i < k then (i, b) :: (k, c) :: m
    else if i = k then (i, b) :: m
    else (k, c) :: Memory.set m i b

/-- Every index is at least `lo` and below the buffer's capacity, and the indices strictly rise. -/
def Memory.risingFrom : Nat → Memory → Bool
  | _, [] => true
  | lo, (k, _) :: m => decide (lo ≤ k ∧ k < Config.bufCap) && Memory.risingFrom (k + 1) m

/-- The canonical form: indices strictly rising, all of them indices of BUF (R41). -/
def Memory.wf (m : Memory) : Bool := Memory.risingFrom 0 m

/-- BUF[i]. An index not written since RESET holds an unspecified value (R34, U1; log 2). -/
def State.bufByte (s : State) (i : Nat) : Byte :=
  match s.buf.get? i with
  | some b => b
  | none => Config.freeByte s.freeCount i

/-- BUF[i], ..., BUF[i + n - 1]. -/
def State.bufBytes (s : State) (i n : Nat) : List Byte := (List.range' i n).map s.bufByte

/-! ### Updates of the state -/

/-- Discard the packet in progress: COUNT and DLEN only (R121). -/
def State.restart (s : State) : State := { s with count := 0, dlen := 0 }

/-- Store a byte at index COUNT and increment COUNT (R122). -/
def State.append (s : State) (b : Byte) : State :=
  { s with buf := s.buf.set s.count.toNat b, count := s.count + 1 }

/-- Write DLEN (R123). -/
def State.declare (s : State) (len : BitVec 3) : State := { s with dlen := len }

/-- Record an accepted packet (R176). -/
def State.record (s : State) (axis : Axis) (fc : Fc) (value : Value) : State :=
  { s with lastAxis := axis, lastFc := fc, lastValue := value, status := .success }

/-- Record a checksum failure: STATUS only (R171). -/
def State.recordFailure (s : State) : State := { s with status := .checksumFailed }

/-- Raise a report event toward the host. It saves nothing and redirects nothing, and there is no
return operation (R246, R251, R252). -/
def State.raise (s : State) (e : Event) : State := { s with events := s.events ++ [e] }

/-- Hand bytes to the byte sink, one TX each, in order (R156). -/
def State.transmit (s : State) (bytes : List Byte) : State := { s with tx := s.tx ++ bytes }

/-- Show the output of a unit evaluated on its own (R9; log 9). -/
def State.emitUnit (s : State) (out : UnitOut) : State := { s with unitOut := s.unitOut ++ [out] }

/-- Write the host's moves still to be taken. -/
def State.withInputs (s : State) (rs : List Request) : State := { s with inputs := rs }

/-! ### RESET -/

/-- RESET (R270): COUNT, DLEN and STATUS are cleared; BUF and the LAST_ registers become unspecified,
drawn afresh (R34, D9; log 1, 2); the TX stream and the event stream stay (C11). -/
def resetOp (s : State) : State :=
  { s with
    count := 0
    dlen := 0
    status := .pending
    buf := []
    lastAxis := Config.freeAxis s.freeCount
    lastFc := Config.freeFc s.freeCount
    lastValue := Config.freeValue s.freeCount
    freeCount := s.freeCount + 1 }

/-! ### ENCODE -/

/-- The packet without its checksum byte: address, control, data (R150 steps 1 to 5). -/
def encodeBody (fc : Fc) (axis : Byte) (arg : Value) : List Byte :=
  let d := vliPack (arg.setWidth 28)
  (axis &&& 0x7F) :: controlByte (lengthCodeOf d.length) fc :: d.map dataByte

/-- The bytes ENCODE emits (R150 step 6). -/
def encodePacket (fc : Fc) (axis : Byte) (arg : Value) : List Byte :=
  encodeBody fc axis arg ++ [chkGen (encodeBody fc axis arg)]

/-- ENCODE: no state is read or written but the TX stream (R150). -/
def encodeOp (fc : Fc) (axis : Byte) (arg : Value) (s : State) : State :=
  s.transmit (encodePacket fc axis arg)

/-! ### DECODE -/

/-- The event of an accepted packet (R175). -/
def reportOf (axis : Axis) (fc : Fc) (value : Value) : Event :=
  if fc = Config.posFc then .pos value else .gen axis fc value

/-- DECODE of the packet of length `len` in BUF, and the event it returns (R170). -/
def decodeOp (len : Nat) (s : State) : State × Event :=
  if chkVerify (s.bufBytes 0 (len - 1)) (s.bufByte (len - 1)) then
    let axis := low7 (s.bufByte 0)
    let fc := controlFc (s.bufByte 1)
    let value := decodeValue fc (low7 (s.bufByte 2)) ((s.bufBytes 3 (len - 4)).map low7)
    (s.record axis fc value, reportOf axis fc value)
  else (s.recordFailure, .csfail)

/-- The call of DECODE that FEED makes, with L = DLEN = COUNT in 4..7, and the raising of its event.
Any other use is refused (R180, D16, U13; log 10). -/
def decodeCall (len : Nat) (s : State) : Result :=
  if s.count.toNat = len ∧ s.dlen.toNat = len ∧ lengthOk len then
    .next ((decodeOp len s).1.raise (decodeOp len s).2)
  else .refused .decodeOutsideFeed

/-! ### FEED -/

/-- Step 1, the framing marker (R121). -/
def frameMark (b : Byte) (s : State) : State := if framingBit b then s else s.restart

/-- Step 3, length decode (R123): DLEN is 4 plus the length code of BUF[1]. -/
def lengthDecode (s : State) : State :=
  if s.count = 2 then s.declare (4 + (controlLc (s.bufByte 1)).setWidth 3) else s

/-- Step 4, completion (R124). -/
def complete (s : State) : Result :=
  if s.count.toNat = s.dlen.toNat then decodeCall s.dlen.toNat s else .next (s.raise .none)

/-- FEED (R120). -/
def feedOp (b : Byte) (s : State) : Result :=
  if (frameMark b s).count.toNat < Config.bufCap then
    complete (lengthDecode ((frameMark b s).append b))
  else .next ((frameMark b s).raise .none)

/-- FEED of each byte in turn (R47, R276). -/
def feedAll : List Byte → State → Result
  | [], s => .next s
  | b :: bytes, s =>
    match feedOp b s with
    | .next s' => feedAll bytes s'
    | .fault f => .fault f
    | .refused r => .refused r

/-! ### The two forms of a function-code row -/

/-- Receive a packet: its bytes are fed in order (R210, R211 on receive; log 6). -/
def receiveOp (fc : Fc) (axis : Axis) (data : List Group) (check : BitVec 7) (s : State) : Result :=
  if groupsOk data then feedAll (packetBytes fc axis data check) s
  else .refused .operandsOutsideDomain

/-- A function-code row: on *send* its ENCODE, on *recv* its FEEDs. `toArg` is the row's way from the
operand to ENCODE's argument. -/
def packetOp {α : Type} (fc : Fc) (toArg : α → Value) (form : PktForm α) (s : State) : Result :=
  match form with
  | .send axis operand => .next (encodeOp fc (axis.setWidth 8) (toArg operand) s)
  | .recv axis data check => receiveOp fc axis data check s

/-! ### Taking the host's next move -/

/-- The host's next move as the decoder reads it, and the state with that move taken. -/
def takeInput (s : State) : Option (Decoded × State) :=
  match s.inputs with
  | [] => none
  | r :: rs => some (decode r, s.withInputs rs)

/-- What is left of a move stands before the later moves (D3; log 5). -/
def putBack (rest : Option Request) (s : State) : State := s.withInputs (rest.toList ++ s.inputs)

end Sys2Proof.Machine
end

