-- ==== Sys2Proof/Machine/Operations.lean ====
section
/-! DEFINITION. The three operations the input pulses select (rules R70, R120, R150, R270). -/

namespace Sys2Proof.Machine

/-- RESET (R270). -/
def execReset (s : State) : Result := .next (resetOp s)

/-- FEED of one byte (R120). -/
def execFeed (b : Byte) (s : State) : Result := feedOp b s

/-- ENCODE (R150). -/
def execEncode (fc : Fc) (axis : Byte) (arg : Value) (s : State) : Result :=
  .next (encodeOp fc axis arg s)

end Sys2Proof.Machine
end

