-- ==== Sys2Proof/Machine/Packets.lean ====
section
/-! DEFINITION. The 32 function-code rows, one meaning each (rules R66, R190 to R199, R210, R211). -/

namespace Sys2Proof.Machine

/-- RESET_ORIGIN, function code 0x00: no operand; the argument field is zero (R192). -/
def execResetOrigin (form : PktForm Unit) (s : State) : Result :=
  packetOp 0x00 (fun _ => 0) form s

/-- MOVE_ABS, function code 0x01: the target position goes to ENCODE as given (R190). -/
def execMoveAbs (form : PktForm Value) (s : State) : Result :=
  packetOp 0x01 id form s

/-- FC_02, function code 0x02: a code the source does not name: a plain ENCODE on transmit, a generic report on receive (R211). -/
def execFc02 (form : PktForm Value) (s : State) : Result :=
  packetOp 0x02 id form s

/-- FC_03, function code 0x03: a code the source does not name: a plain ENCODE on transmit, a generic report on receive (R211). -/
def execFc03 (form : PktForm Value) (s : State) : Result :=
  packetOp 0x03 id form s

/-- FC_04, function code 0x04: a code the source does not name: a plain ENCODE on transmit, a generic report on receive (R211). -/
def execFc04 (form : PktForm Value) (s : State) : Result :=
  packetOp 0x04 id form s

/-- FC_05, function code 0x05: a code the source does not name: a plain ENCODE on transmit, a generic report on receive (R211). -/
def execFc05 (form : PktForm Value) (s : State) : Result :=
  packetOp 0x05 id form s

/-- FC_06, function code 0x06: a code the source does not name: a plain ENCODE on transmit, a generic report on receive (R211). -/
def execFc06 (form : PktForm Value) (s : State) : Result :=
  packetOp 0x06 id form s

/-- SET_CONFIG, function code 0x07: the config byte, zero-extended and not interpreted (R198). -/
def execSetConfig (form : PktForm Byte) (s : State) : Result :=
  packetOp 0x07 (fun x => x.setWidth 32) form s

/-- FC_08, function code 0x08: a code the source does not name: a plain ENCODE on transmit, a generic report on receive (R211). -/
def execFc08 (form : PktForm Value) (s : State) : Result :=
  packetOp 0x08 id form s

/-- FC_09, function code 0x09: a code the source does not name: a plain ENCODE on transmit, a generic report on receive (R211). -/
def execFc09 (form : PktForm Value) (s : State) : Result :=
  packetOp 0x09 id form s

/-- ROTATE, function code 0x0A: the speed goes to ENCODE as given (R191). -/
def execRotate (form : PktForm Value) (s : State) : Result :=
  packetOp 0x0A id form s

/-- FC_0B, function code 0x0B: a code the source does not name: a plain ENCODE on transmit, a generic report on receive (R211). -/
def execFc0B (form : PktForm Value) (s : State) : Result :=
  packetOp 0x0B id form s

/-- FC_0C, function code 0x0C: a code the source does not name: a plain ENCODE on transmit, a generic report on receive (R211). -/
def execFc0C (form : PktForm Value) (s : State) : Result :=
  packetOp 0x0C id form s

/-- FC_0D, function code 0x0D: a code the source does not name: a plain ENCODE on transmit, a generic report on receive (R211). -/
def execFc0D (form : PktForm Value) (s : State) : Result :=
  packetOp 0x0D id form s

/-- PARAM_READ, function code 0x0E: the sub-code, zero-extended and not interpreted (R199). -/
def execParamRead (form : PktForm Byte) (s : State) : Result :=
  packetOp 0x0E (fun x => x.setWidth 32) form s

/-- FC_0F, function code 0x0F: a code the source does not name: a plain ENCODE on transmit, a generic report on receive (R211). -/
def execFc0F (form : PktForm Value) (s : State) : Result :=
  packetOp 0x0F id form s

/-- SET_MAIN_GAIN, function code 0x10: the operand is clamped to [1, 127] (R195). -/
def execSetMainGain (form : PktForm Value) (s : State) : Result :=
  packetOp 0x10 clampSetter form s

/-- SET_SPEED_GAIN, function code 0x11: the operand is clamped to [1, 127] (R196). -/
def execSetSpeedGain (form : PktForm Value) (s : State) : Result :=
  packetOp 0x11 clampSetter form s

/-- SET_INT_GAIN, function code 0x12: the operand is clamped to [1, 127] (R197). -/
def execSetIntGain (form : PktForm Value) (s : State) : Result :=
  packetOp 0x12 clampSetter form s

/-- FC_13, function code 0x13: a code the source does not name: a plain ENCODE on transmit, a generic report on receive (R211). -/
def execFc13 (form : PktForm Value) (s : State) : Result :=
  packetOp 0x13 id form s

/-- SET_MAX_SPEED, function code 0x14: the operand is clamped to [1, 127] (R193). -/
def execSetMaxSpeed (form : PktForm Value) (s : State) : Result :=
  packetOp 0x14 clampSetter form s

/-- SET_MAX_ACCEL, function code 0x15: the operand is clamped to [1, 127] (R194). -/
def execSetMaxAccel (form : PktForm Value) (s : State) : Result :=
  packetOp 0x15 clampSetter form s

/-- FC_16, function code 0x16: a code the source does not name: a plain ENCODE on transmit, a generic report on receive (R211). -/
def execFc16 (form : PktForm Value) (s : State) : Result :=
  packetOp 0x16 id form s

/-- FC_17, function code 0x17: a code the source does not name: a plain ENCODE on transmit, a generic report on receive (R211). -/
def execFc17 (form : PktForm Value) (s : State) : Result :=
  packetOp 0x17 id form s

/-- FC_18, function code 0x18: a code the source does not name: a plain ENCODE on transmit, a generic report on receive (R211). -/
def execFc18 (form : PktForm Value) (s : State) : Result :=
  packetOp 0x18 id form s

/-- FC_19, function code 0x19: a code the source does not name: a plain ENCODE on transmit, a generic report on receive (R211). -/
def execFc19 (form : PktForm Value) (s : State) : Result :=
  packetOp 0x19 id form s

/-- FC_1A, function code 0x1A: a code the source does not name: a plain ENCODE on transmit, a generic report on receive (R211). -/
def execFc1A (form : PktForm Value) (s : State) : Result :=
  packetOp 0x1A id form s

/-- ABS_POS_REPORT, function code 0x1B: on receive the one code that raises POS; on transmit a plain ENCODE (R210). -/
def execAbsPosReport (form : PktForm Value) (s : State) : Result :=
  packetOp 0x1B id form s

/-- FC_1C, function code 0x1C: a code the source does not name: a plain ENCODE on transmit, a generic report on receive (R211). -/
def execFc1C (form : PktForm Value) (s : State) : Result :=
  packetOp 0x1C id form s

/-- FC_1D, function code 0x1D: a code the source does not name: a plain ENCODE on transmit, a generic report on receive (R211). -/
def execFc1D (form : PktForm Value) (s : State) : Result :=
  packetOp 0x1D id form s

/-- FC_1E, function code 0x1E: a code the source does not name: a plain ENCODE on transmit, a generic report on receive (R211). -/
def execFc1E (form : PktForm Value) (s : State) : Result :=
  packetOp 0x1E id form s

/-- FC_1F, function code 0x1F: a code the source does not name: a plain ENCODE on transmit, a generic report on receive (R211). -/
def execFc1F (form : PktForm Value) (s : State) : Result :=
  packetOp 0x1F id form s

end Sys2Proof.Machine
end

