-- ==== Sys2Proof/Machine/Units.lean ====
section
/-! DEFINITION. The seven internal functions, evaluated on their own (rules R91, R92, R101, R103, R104,
R170, R200). A combinational unit changes no state of the block; its output is shown in `unitOut`. -/

namespace Sys2Proof.Machine

/-- DECODE, as FEED calls it (R170); any other use is refused (R180, D16). -/
def execDecode (len : Nat) (s : State) : Result := decodeCall len s

/-- CHK_GEN (R91). -/
def execChkGen (p : List Byte) (s : State) : Result := .next (s.emitUnit (.byte (chkGen p)))

/-- CHK_VERIFY (R92). -/
def execChkVerify (p : List Byte) (c : Byte) (s : State) : Result :=
  .next (s.emitUnit (.bit (chkVerify p c)))

/-- VLI_PACK (R101). -/
def execVliPack (a : ArgField) (s : State) : Result := .next (s.emitUnit (.groups (vliPack a)))

/-- VLI_UNPACK_S of 1 to 4 groups (R103). -/
def execVliUnpackS (g : List Group) (s : State) : Result :=
  match g with
  | g :: rest =>
    if groupsOk (g :: rest) then .next (s.emitUnit (.value (vliUnpackS g rest)))
    else .refused .operandsOutsideDomain
  | [] => .refused .operandsOutsideDomain

/-- VLI_UNPACK_U of 1 to 4 groups (R104). -/
def execVliUnpackU (g : List Group) (s : State) : Result :=
  match g with
  | g :: rest =>
    if groupsOk (g :: rest) then .next (s.emitUnit (.value (vliUnpackU g rest)))
    else .refused .operandsOutsideDomain
  | [] => .refused .operandsOutsideDomain

/-- CLAMP (R200). -/
def execClamp (x : Value) (s : State) : Result := .next (s.emitUnit (.value (clampSetter x)))

end Sys2Proof.Machine
end

