-- ==== Sys2Proof/Machine/Dispatch.lean ====
section
/-! DEFINITION. The meaning of every instruction, one arm per constructor. -/

namespace Sys2Proof.Machine

def exec (i : Instr) (s : State) : Host.Outcome State Fault Refusal :=
  match i with
  | .resetOrigin form => Sys2Proof.Machine.execResetOrigin form s
  | .moveAbs form => Sys2Proof.Machine.execMoveAbs form s
  | .fc02 form => Sys2Proof.Machine.execFc02 form s
  | .fc03 form => Sys2Proof.Machine.execFc03 form s
  | .fc04 form => Sys2Proof.Machine.execFc04 form s
  | .fc05 form => Sys2Proof.Machine.execFc05 form s
  | .fc06 form => Sys2Proof.Machine.execFc06 form s
  | .setConfig form => Sys2Proof.Machine.execSetConfig form s
  | .fc08 form => Sys2Proof.Machine.execFc08 form s
  | .fc09 form => Sys2Proof.Machine.execFc09 form s
  | .rotate form => Sys2Proof.Machine.execRotate form s
  | .fc0B form => Sys2Proof.Machine.execFc0B form s
  | .fc0C form => Sys2Proof.Machine.execFc0C form s
  | .fc0D form => Sys2Proof.Machine.execFc0D form s
  | .paramRead form => Sys2Proof.Machine.execParamRead form s
  | .fc0F form => Sys2Proof.Machine.execFc0F form s
  | .setMainGain form => Sys2Proof.Machine.execSetMainGain form s
  | .setSpeedGain form => Sys2Proof.Machine.execSetSpeedGain form s
  | .setIntGain form => Sys2Proof.Machine.execSetIntGain form s
  | .fc13 form => Sys2Proof.Machine.execFc13 form s
  | .setMaxSpeed form => Sys2Proof.Machine.execSetMaxSpeed form s
  | .setMaxAccel form => Sys2Proof.Machine.execSetMaxAccel form s
  | .fc16 form => Sys2Proof.Machine.execFc16 form s
  | .fc17 form => Sys2Proof.Machine.execFc17 form s
  | .fc18 form => Sys2Proof.Machine.execFc18 form s
  | .fc19 form => Sys2Proof.Machine.execFc19 form s
  | .fc1A form => Sys2Proof.Machine.execFc1A form s
  | .absPosReport form => Sys2Proof.Machine.execAbsPosReport form s
  | .fc1C form => Sys2Proof.Machine.execFc1C form s
  | .fc1D form => Sys2Proof.Machine.execFc1D form s
  | .fc1E form => Sys2Proof.Machine.execFc1E form s
  | .fc1F form => Sys2Proof.Machine.execFc1F form s
  | .reset => Sys2Proof.Machine.execReset s
  | .feed b => Sys2Proof.Machine.execFeed b s
  | .encode fc axis arg => Sys2Proof.Machine.execEncode fc axis arg s
  | .decode len => Sys2Proof.Machine.execDecode len s
  | .chkGen p => Sys2Proof.Machine.execChkGen p s
  | .chkVerify p c => Sys2Proof.Machine.execChkVerify p c s
  | .vliPack a => Sys2Proof.Machine.execVliPack a s
  | .vliUnpackS g => Sys2Proof.Machine.execVliUnpackS g s
  | .vliUnpackU g => Sys2Proof.Machine.execVliUnpackU g s
  | .clamp x => Sys2Proof.Machine.execClamp x s

end Sys2Proof.Machine
end

