-- ==== Sys2Proof/Machine/Step.lean ====
section
/-! DEFINITION. One step: take the host's next move and perform the operation it starts with (rules R9,
R47, R284; log 4, 5). With no move to take the block holds its state (rule R259). -/

namespace Sys2Proof.Machine

/-- One step of the block. -/
def step (s : State) : Host.Outcome State Fault Refusal :=
  match takeInput s with
  | none => .next s
  | some (.run i rest, s') => exec i (putBack rest s')
  | some (.idle, s') => .next s'
  | some (.rejected e, _) => .refused (.undecodable e)

/-- The state with a word of the opcode table as the host's next move (log 6). -/
def State.withFetchWord (s : State) (nbits w : Nat) : State :=
  match tableRequest nbits w with
  | some r => s.withInputs (r :: s.inputs)
  | none => s

end Sys2Proof.Machine
end

