-- ==== Sys2Proof/Safety.lean ====
section
/-! DEFINITION. What holds in every state of a run (rule R33), in the terms the statements use. -/

namespace Sys2Proof.Machine

/-- The state invariant of R33, items 1 to 5, with the canonical form of the buffer. Item 8 holds by
the type of STATUS; items 6 and 7 speak of the history of a run. -/
abbrev State.Inv (s : State) : Prop :=
  s.count.toNat ≤ Config.bufCap ∧
  (s.dlen = 0 ↔ s.count.toNat < 2) ∧
  (2 ≤ s.count.toNat → s.dlen.toNat = 4 + (controlLc (s.bufByte 1)).toNat) ∧
  (∀ i < s.count.toNat, (s.buf.get? i).isSome = true) ∧
  (∀ i < s.count.toNat, 1 ≤ i → framingBit (s.bufByte i) = true) ∧
  s.buf.wf = true

/-- The first clause of R33 that FEED needs: DLEN holds a legal value (R23). -/
abbrev State.LegalDlen (s : State) : Prop := s.dlen = 0 ∨ 4 ≤ s.dlen.toNat

end Sys2Proof.Machine
end

