-- ==== Sys2Proof/Certificates/Slice0/Obligations.lean ====
section
/-! DEFINITION. The statements for the provers. `Sys2Proof.Ref` holds the arithmetic the statements are
written in: integers, quotients and remainders, none of the model's own bit operations. -/

namespace Sys2Proof.Ref

open Sys2Proof Sys2Proof.Machine

/-- The sum of bytes in the integers (R11). -/
def byteSum (p : List Byte) : Nat := (p.map BitVec.toNat).sum

/-- The big-endian number of a sequence of 7-bit digits (R43). -/
def groupNumber (g : List Group) : Nat := g.foldl (fun n x => 128 * n + x.toNat) 0

/-- The same digits read as two's complement of 7n bits (R68). -/
def signedNumber (g : List Group) : Int :=
  if (groupNumber g : Int) < 128 ^ g.length / 2 then groupNumber g else groupNumber g - 128 ^ g.length

/-- The table of R102: how many groups a value needs. -/
def groupsNeeded (v : Int) : Nat :=
  if -64 ≤ v ∧ v ≤ 63 then 1
  else if -8192 ≤ v ∧ v ≤ 8191 then 2
  else if -1048576 ≤ v ∧ v ≤ 1048575 then 3
  else 4

/-- The low `n` 7-bit digits of an integer, most significant first (R69, R102). -/
def lowGroups : Nat → Int → List Group
  | 0, _ => []
  | n + 1, v => BitVec.ofInt 7 (v / 128 ^ n) :: lowGroups n v

/-- An argument reduced modulo 2^28 and read as 28 bits two's complement (R151, R159). -/
def wrap28 (arg : Value) : Int := arg.toInt.bmod (2 ^ 28)

/-- The bytes of a packet without its checksum byte (R60 to R63), by arithmetic. -/
def bodyOf (fc axis : Nat) (data : List Group) : List Byte :=
  BitVec.ofNat 8 axis :: BitVec.ofNat 8 (128 + 32 * (data.length - 1) + fc) ::
    data.map fun g => BitVec.ofNat 8 (128 + g.toNat)

/-- The packet that carries `v` in the fewest groups, with its checksum (R64, R69, R158). -/
def packetOf (fc axis : Nat) (v : Int) : List Byte :=
  let body := bodyOf fc axis (lowGroups (groupsNeeded v) v)
  body ++ [BitVec.ofNat 8 (128 + byteSum body % 128)]

/-- CLAMP by integers (R200). -/
def clampInt (x : Int) : Int := max 1 (min 127 x)

/-- The recorded value of an accepted packet (R173, R174). UNSIGNED_FC is the free parameter of log
3. -/
def valueOf (fc : Fc) (g : List Group) : Value :=
  if Config.decodesUnsigned fc then BitVec.ofNat 32 (groupNumber g) else BitVec.ofInt 32 (signedNumber g)

/-- The report of an accepted packet (R175). -/
def reportFor (axis : Axis) (fc : Fc) (value : Value) : Event :=
  if fc = 0x1B then .pos value else .gen axis fc value

/-- What the arrival of one packet leaves, in any state (R120, R170): COUNT and DLEN at its length,
its bytes in BUF, one event per byte (NONE included: log 8), and STATUS with the LAST_ registers as
its checksum decides. Nothing else changes. -/
def Arrives (fc : Fc) (axis : Axis) (data : List Group) (check : BitVec 7) (s t : State) : Prop :=
  let body := bodyOf fc.toNat axis.toNat data
  let wire := body ++ [BitVec.ofNat 8 (128 + check.toNat)]
  let pass := byteSum body % 128 = check.toNat
  t.count.toNat = data.length + 3 ∧ t.dlen.toNat = data.length + 3 ∧
  (∀ i, t.buf.get? i = if i < data.length + 3 then wire[i]? else s.buf.get? i) ∧
  t.events = s.events ++ List.replicate (data.length + 2) .none ++
    [if pass then reportFor axis fc (valueOf fc data) else .csfail] ∧
  t.status = (if pass then .success else .checksumFailed) ∧
  t.lastAxis = (if pass then axis else s.lastAxis) ∧
  t.lastFc = (if pass then fc else s.lastFc) ∧
  t.lastValue = (if pass then valueOf fc data else s.lastValue) ∧
  t.tx = s.tx ∧ t.unitOut = s.unitOut ∧ t.inputs = s.inputs ∧ t.freeCount = s.freeCount

/-- FEED of each byte in turn by `exec`, as long as each answers a next state. -/
def feeds : List Byte → State → Option State
  | [], s => some s
  | b :: bytes, s =>
    match exec (.feed b) s with
    | .next t => feeds bytes t
    | .fault _ => none
    | .refused _ => none

/-- R75: a canonical packet. Item 5 is stated by the least number of groups (R102). -/
def Canonical (p : List Byte) : Prop :=
  ∃ a c : Byte, ∃ data : List Byte, ∃ k : Byte,
    p = a :: c :: (data ++ [k]) ∧
    1 ≤ data.length ∧ data.length ≤ 4 ∧
    a.toNat < 128 ∧ 128 ≤ c.toNat ∧ (∀ d ∈ data, 128 ≤ d.toNat) ∧
    c.toNat / 32 % 4 = data.length - 1 ∧
    k.toNat = 128 + byteSum (a :: c :: data) % 128 ∧
    groupsNeeded (signedNumber (data.map (BitVec.setWidth 7))) = data.length

/-- Two states that agree on all but the bytes of BUF at and above COUNT and the free draws. -/
def AgreeBelowCount (s t : State) : Prop :=
  s.count = t.count ∧ s.dlen = t.dlen ∧ s.status = t.status ∧ s.lastAxis = t.lastAxis ∧
  s.lastFc = t.lastFc ∧ s.lastValue = t.lastValue ∧ s.tx = t.tx ∧ s.events = t.events ∧
  s.unitOut = t.unitOut ∧ s.inputs = t.inputs ∧
  ∀ i < s.count.toNat, s.buf.get? i = t.buf.get? i

/-- The received form of the ten rows the source names as commands. -/
def namedReceived : List (Fc × (Axis → List Group → BitVec 7 → Instr)) :=
  [(0x00, fun a d c => .resetOrigin (.recv a d c)),
   (0x01, fun a d c => .moveAbs (.recv a d c)),
   (0x07, fun a d c => .setConfig (.recv a d c)),
   (0x0A, fun a d c => .rotate (.recv a d c)),
   (0x0E, fun a d c => .paramRead (.recv a d c)),
   (0x10, fun a d c => .setMainGain (.recv a d c)),
   (0x11, fun a d c => .setSpeedGain (.recv a d c)),
   (0x12, fun a d c => .setIntGain (.recv a d c)),
   (0x14, fun a d c => .setMaxSpeed (.recv a d c)),
   (0x15, fun a d c => .setMaxAccel (.recv a d c))]

/-- The received form of the 21 rows the source does not name. -/
def unnamedReceived : List (Fc × (Axis → List Group → BitVec 7 → Instr)) :=
  [(0x02, fun a d c => .fc02 (.recv a d c)),
   (0x03, fun a d c => .fc03 (.recv a d c)),
   (0x04, fun a d c => .fc04 (.recv a d c)),
   (0x05, fun a d c => .fc05 (.recv a d c)),
   (0x06, fun a d c => .fc06 (.recv a d c)),
   (0x08, fun a d c => .fc08 (.recv a d c)),
   (0x09, fun a d c => .fc09 (.recv a d c)),
   (0x0B, fun a d c => .fc0B (.recv a d c)),
   (0x0C, fun a d c => .fc0C (.recv a d c)),
   (0x0D, fun a d c => .fc0D (.recv a d c)),
   (0x0F, fun a d c => .fc0F (.recv a d c)),
   (0x13, fun a d c => .fc13 (.recv a d c)),
   (0x16, fun a d c => .fc16 (.recv a d c)),
   (0x17, fun a d c => .fc17 (.recv a d c)),
   (0x18, fun a d c => .fc18 (.recv a d c)),
   (0x19, fun a d c => .fc19 (.recv a d c)),
   (0x1A, fun a d c => .fc1A (.recv a d c)),
   (0x1C, fun a d c => .fc1C (.recv a d c)),
   (0x1D, fun a d c => .fc1D (.recv a d c)),
   (0x1E, fun a d c => .fc1E (.recv a d c)),
   (0x1F, fun a d c => .fc1F (.recv a d c))]

/-- The sent form of the 21 rows the source does not name. -/
def unnamedSent : List (Fc × (Axis → Value → Instr)) :=
  [(0x02, fun a x => .fc02 (.send a x)),
   (0x03, fun a x => .fc03 (.send a x)),
   (0x04, fun a x => .fc04 (.send a x)),
   (0x05, fun a x => .fc05 (.send a x)),
   (0x06, fun a x => .fc06 (.send a x)),
   (0x08, fun a x => .fc08 (.send a x)),
   (0x09, fun a x => .fc09 (.send a x)),
   (0x0B, fun a x => .fc0B (.send a x)),
   (0x0C, fun a x => .fc0C (.send a x)),
   (0x0D, fun a x => .fc0D (.send a x)),
   (0x0F, fun a x => .fc0F (.send a x)),
   (0x13, fun a x => .fc13 (.send a x)),
   (0x16, fun a x => .fc16 (.send a x)),
   (0x17, fun a x => .fc17 (.send a x)),
   (0x18, fun a x => .fc18 (.send a x)),
   (0x19, fun a x => .fc19 (.send a x)),
   (0x1A, fun a x => .fc1A (.send a x)),
   (0x1C, fun a x => .fc1C (.send a x)),
   (0x1D, fun a x => .fc1D (.send a x)),
   (0x1E, fun a x => .fc1E (.send a x)),
   (0x1F, fun a x => .fc1F (.send a x))]

/-- The sent form of the five setters. -/
def settersSent : List (Fc × (Axis → Value → Instr)) :=
  [(0x14, fun a x => .setMaxSpeed (.send a x)),
   (0x15, fun a x => .setMaxAccel (.send a x)),
   (0x10, fun a x => .setMainGain (.send a x)),
   (0x11, fun a x => .setSpeedGain (.send a x)),
   (0x12, fun a x => .setIntGain (.send a x))]

/-- The units, which no encoding selects (R70). -/
def isUnit : Instr → Bool
  | .decode _ | .chkGen _ | .chkVerify _ _ | .vliPack _ | .vliUnpackS _ | .vliUnpackU _ | .clamp _ => true
  | _ => false

end Sys2Proof.Ref

open Sys2Proof Sys2Proof.Machine Sys2Proof.Ref

/-! ### Reset -/

/-- R34, R272: the state at power-on. Nothing is said of the registers the spec leaves unspecified. -/
def Obligations.PowerOnState : Prop :=
  State.reset.count = 0 ∧ State.reset.dlen = 0 ∧ State.reset.status = .pending ∧
  State.reset.tx = [] ∧ State.reset.events = []

/-- R270: RESET always completes; it clears COUNT, DLEN and STATUS and leaves the TX stream, the event
stream and the host's later moves. What BUF and the LAST_ registers hold is free (log 1, 2); that no
index of BUF is listed is the model's form of it. -/
def Obligations.ResetClearsAssembly : Prop :=
  ∀ s : State, ∃ t, exec .reset s = .next t ∧
    t.count = 0 ∧ t.dlen = 0 ∧ t.status = .pending ∧ (∀ i, t.buf.get? i = none) ∧
    t.tx = s.tx ∧ t.events = s.events ∧ t.unitOut = s.unitOut ∧ t.inputs = s.inputs

/-! ### The checksum unit -/

/-- R91: CHK_GEN gives 128 plus the low seven bits of the sum modulo 256, and changes nothing else. -/
def Obligations.ChkGenAddsSevenBits : Prop :=
  ∀ (p : List Byte) (s : State), exec (.chkGen p) s =
    .next { s with unitOut := s.unitOut ++ [.byte (BitVec.ofNat 8 (128 + byteSum p % 256 % 128))] }

/-- R92: CHK_VERIFY passes exactly when the low seven bits agree, and changes nothing else. -/
def Obligations.ChkVerifyComparesSevenBits : Prop :=
  ∀ (p : List Byte) (c : Byte) (s : State), exec (.chkVerify p c) s =
    .next { s with unitOut := s.unitOut ++ [.bit (decide (byteSum p % 256 % 128 = c.toNat % 128))] }

/-- R93 items 2 and 3, inferences of the spec: after one flipped bit `k` of one summed byte, a
checksum that passed still passes exactly when `k` is 7, and a flipped bit of the checksum byte
is seen exactly when it is not bit 7. -/
def Obligations.SingleBitFlipsAreSeenButForBitSeven : Prop :=
  ∀ (p q : List Byte) (b c : Byte) (k : Nat), k < 8 → chkVerify (p ++ b :: q) c = true →
    (chkVerify (p ++ (b ^^^ BitVec.twoPow 8 k) :: q) c = true ↔ k = 7) ∧
    (chkVerify (p ++ b :: q) (c ^^^ BitVec.twoPow 8 k) = true ↔ k = 7)

/-- R93 item 5, an inference of the spec: changes of two bytes that cancel modulo 128 are missed. The
sum does not depend on the order of the bytes (R90). -/
def Obligations.CancellingChangesAreMissed : Prop :=
  (∀ (p q : List Byte) (c : Byte), byteSum p % 128 = byteSum q % 128 → chkVerify p c = chkVerify q c) ∧
  (∀ (p q : List Byte), p.Perm q → chkGen p = chkGen q)

/-! ### The variable-length integer unit and the clamp -/

/-- R102, an inference of the spec from R101: VLI_PACK gives the low 7n bits of the field in the
least number n of groups whose signed reading is the field. -/
def Obligations.VliPackIsShortestSigned : Prop :=
  ∀ (a : ArgField) (s : State), exec (.vliPack a) s =
    .next { s with unitOut := s.unitOut ++ [.groups (lowGroups (groupsNeeded a.toInt) a.toInt)] }

/-- R103 as its equivalent form, an inference of the spec: 1 to 4 groups are read as 7n bits two's
complement. -/
def Obligations.VliUnpackSignedReads : Prop :=
  ∀ (g : List Group) (s : State), 1 ≤ g.length → g.length ≤ 4 → exec (.vliUnpackS g) s =
    .next { s with unitOut := s.unitOut ++ [.value (BitVec.ofInt 32 (signedNumber g))] }

/-- R104: 1 to 4 groups are read as an unsigned number, which is at most 2^(7n) - 1. -/
def Obligations.VliUnpackUnsignedReads : Prop :=
  ∀ (g : List Group) (s : State), 1 ≤ g.length → g.length ≤ 4 →
    exec (.vliUnpackU g) s =
      .next { s with unitOut := s.unitOut ++ [.value (BitVec.ofNat 32 (groupNumber g))] } ∧
    (BitVec.ofNat 32 (groupNumber g)).toNat = groupNumber g ∧ groupNumber g ≤ 2 ^ (7 * g.length) - 1

/-- The model's choice of log 11: the unpackers, and a received packet, are refused by name on other
than 1 to 4 groups, for which the spec states no meaning. -/
def Obligations.OtherGroupCountsRefused : Prop :=
  ∀ (g : List Group) (s : State), (g.length = 0 ∨ 4 < g.length) →
    exec (.vliUnpackS g) s = .refused .operandsOutsideDomain ∧
    exec (.vliUnpackU g) s = .refused .operandsOutsideDomain ∧
    ∀ row ∈ (0x1B, fun a d c => Instr.absPosReport (.recv a d c)) :: namedReceived ++ unnamedReceived,
      ∀ axis check, exec (row.2 axis g check) s = .refused .operandsOutsideDomain

/-- R105 items 1 to 3, inferences of the spec: what the two unpackers make of a packed field. -/
def Obligations.VliRoundTrip : Prop :=
  ∀ a : ArgField, ∃ g rest, vliPack a = g :: rest ∧
    vliUnpackS g rest = a.signExtend 32 ∧
    (a.msb = false → vliUnpackU g rest = a.setWidth 32) ∧
    (a.msb = true → (vliUnpackU g rest).toNat = a.toNat % 2 ^ (7 * (g :: rest).length))

/-- R105 item 4, an inference of the spec: VLI_PACK is injective, and its image is the sequences of 1
to 4 groups with no redundant leading sign group. -/
def Obligations.VliPackImage : Prop :=
  (∀ a b : ArgField, vliPack a = vliPack b → a = b) ∧
  ∀ g : List Group, (∃ a : ArgField, vliPack a = g) ↔
    1 ≤ g.length ∧ g.length ≤ 4 ∧
    ∀ x y rest, g = x :: y :: rest → ¬(x.toNat = 0 ∧ y.toNat < 64) ∧ ¬(x.toNat = 127 ∧ 64 ≤ y.toNat)

/-- R200: CLAMP gives the nearest integer of [1, 127], signed. The input width of 32 bits is the
spec's decision D20. -/
def Obligations.ClampKeepsSetterRange : Prop :=
  ∀ (x : Value) (s : State), exec (.clamp x) s =
    .next { s with unitOut := s.unitOut ++ [.value (BitVec.ofInt 32 (clampInt x.toInt))] }

/-! ### ENCODE -/

/-- R150, with the port widths of the spec's decisions D5, D6: ENCODE appends the shortest packet
of the argument reduced to 28 bits, for the axis reduced to 7 bits, and changes nothing else. -/
def Obligations.EncodeEmitsShortestPacket : Prop :=
  ∀ (fc : Fc) (axis : Byte) (arg : Value) (s : State), exec (.encode fc axis arg) s =
    .next { s with tx := s.tx ++ packetOf fc.toNat (axis.toNat % 128) (wrap28 arg) }

/-- R151: in the supported range the mask loses nothing, so ENCODE appends the packet of the argument
itself; and two arguments have the same outcome exactly when they agree modulo 2^28. -/
def Obligations.EncodeMasksArgument : Prop :=
  (∀ (fc : Fc) (axis : Byte) (arg : Value) (s : State),
    -(2 ^ 27) ≤ arg.toInt → arg.toInt ≤ 2 ^ 27 - 1 →
    exec (.encode fc axis arg) s =
      .next { s with tx := s.tx ++ packetOf fc.toNat (axis.toNat % 128) arg.toInt }) ∧
  (∀ (fc : Fc) (axis : Byte) (arg arg' : Value) (s : State),
    exec (.encode fc axis arg) s = exec (.encode fc axis arg') s ↔
      arg.toInt % 2 ^ 28 = arg'.toInt % 2 ^ 28)

/-- R154: the first byte emitted is the axis with bit 7 cleared. -/
def Obligations.EncodeAddressByteClearsBitSeven : Prop :=
  ∀ (fc : Fc) (axis : Byte) (arg : Value) (s : State), ∃ rest,
    exec (.encode fc axis arg) s =
      .next { s with tx := s.tx ++ BitVec.ofNat 8 (axis.toNat % 128) :: rest }

/-- R75, R158, an inference of the spec: the canonical packets are exactly the outputs of ENCODE. -/
def Obligations.CanonicalPacketsAreTheEncodes : Prop :=
  ∀ p : List Byte, Canonical p ↔
    ∃ fc axis arg, ∀ s : State, exec (.encode fc axis arg) s = .next { s with tx := s.tx ++ p }

/-! ### FEED -/

/-- R121: a byte with bit 7 clear restarts accumulation in every state, and is stored at index 0; no
event is raised for the abandoned bytes, and STATUS, the LAST_ registers and every other byte of
BUF stay. That STATUS stays is the spec's decision D8; the entry NONE is log 8. -/
def Obligations.FeedAddressByteRestarts : Prop :=
  ∀ (s : State) (b : Byte), b.toNat < 128 → ∃ m : Memory,
    exec (.feed b) s = .next { s with count := 1, dlen := 0, buf := m, events := s.events ++ [.none] } ∧
    ∀ i, m.get? i = if i = 0 then some b else s.buf.get? i

/-- R122: a byte with bit 7 set is stored at index COUNT and COUNT is incremented, whatever else the
FEED then does; when COUNT has reached 8 it is dropped, nothing changes and no report is raised. Byte
0 of a new packet is always stored, at index 0. -/
def Obligations.FeedAppendsUnlessFull : Prop :=
  (∀ (s t : State) (b : Byte), 128 ≤ b.toNat → s.count.toNat < 8 → exec (.feed b) s = .next t →
    t.count.toNat = s.count.toNat + 1 ∧
    ∀ i, t.buf.get? i = if i = s.count.toNat then some b else s.buf.get? i) ∧
  (∀ (s : State) (b : Byte), 128 ≤ b.toNat → 8 ≤ s.count.toNat → ∃ events,
    exec (.feed b) s = .next { s with events := events } ∧
    events.filter (fun e => decide (e ≠ .none)) = s.events.filter (fun e => decide (e ≠ .none))) ∧
  (∀ (s t : State) (b : Byte), b.toNat < 128 → exec (.feed b) s = .next t →
    t.count = 1 ∧ t.buf.get? 0 = some b)

/-- The rows of R126 that raise NONE and store a byte with bit 7 set, an inference of the spec: the
whole next state of a FEED that does not complete a packet. The entry NONE is log 8. -/
def Obligations.FeedBeforeCompletionRaisesNothing : Prop :=
  ∀ (s : State) (b : Byte), 128 ≤ b.toNat → s.count.toNat < 8 →
    (s.count = 1 ∨ s.count.toNat + 1 ≠ s.dlen.toNat) → ∃ m : Memory,
      exec (.feed b) s =
        .next { s with
          count := s.count + 1
          dlen := if s.count = 1 then BitVec.ofNat 3 (4 + b.toNat / 32 % 4) else s.dlen
          buf := m
          events := s.events ++ [.none] } ∧
      ∀ i, m.get? i = if i = s.count.toNat then some b else s.buf.get? i

/-- R123: DLEN becomes 4 plus bits 6..5 of the control byte, which is stored at index 1, in the FEED
that brings COUNT to 2; a FEED of any other byte with bit 7 set leaves DLEN. -/
def Obligations.FeedControlByteDeclaresLength : Prop :=
  ∀ (s : State) (b : Byte), 128 ≤ b.toNat →
    (s.count = 1 → ∃ t, exec (.feed b) s = .next t ∧ t.count = 2 ∧ t.buf.get? 1 = some b ∧
      t.dlen.toNat = 4 + b.toNat / 32 % 4) ∧
    (s.count ≠ 1 → ∀ t, exec (.feed b) s = .next t → t.dlen = s.dlen)

/-- R124: the FEED that brings COUNT to the declared length is DECODE of the buffer with the byte
stored. -/
def Obligations.FeedCompletionCallsDecode : Prop :=
  ∀ (s : State) (b : Byte), 128 ≤ b.toNat → 4 ≤ s.dlen.toNat → s.count.toNat + 1 = s.dlen.toNat →
    ∃ m : Memory,
      exec (.feed b) s = exec (.decode s.dlen.toNat) { s with count := s.count + 1, buf := m } ∧
      ∀ i, m.get? i = if i = s.count.toNat then some b else s.buf.get? i

/-- R133, an inference of the spec: in a state of the invariant every FEED completes and raises
exactly one event (log 8), which is not NONE exactly when the byte is stored at index DLEN - 1; it never
touches the TX stream. -/
def Obligations.FeedRaisesExactlyOneEvent : Prop :=
  ∀ (s : State) (b : Byte), s.Inv → ∃ t e,
    exec (.feed b) s = .next t ∧ t.events = s.events ++ [e] ∧
    (e ≠ .none ↔ 128 ≤ b.toNat ∧ 4 ≤ s.dlen.toNat ∧ s.count.toNat + 1 = s.dlen.toNat) ∧
    t.tx = s.tx ∧ t.inputs = s.inputs ∧ t.unitOut = s.unitOut ∧ t.freeCount = s.freeCount

/-- R129, an inference of the spec from R126: an address byte and fewer bytes with bit 7 set than the
packet needs raise nothing (an entry NONE each: log 8) and leave STATUS and the LAST_ registers,
whatever the state was. -/
def Obligations.TruncatedPacketIsSilent : Prop :=
  ∀ (s : State) (a c : Byte) (bytes : List Byte), a.toNat < 128 → 128 ≤ c.toNat →
    (∀ b ∈ bytes, 128 ≤ b.toNat) → bytes.length + 2 < 4 + c.toNat / 32 % 4 →
    ∃ t, feeds (a :: c :: bytes) s = some t ∧
      t.events = s.events ++ List.replicate (bytes.length + 2) .none ∧
      t.status = s.status ∧ t.lastAxis = s.lastAxis ∧ t.lastFc = s.lastFc ∧ t.lastValue = s.lastValue ∧
      t.count.toNat = bytes.length + 2 ∧ t.dlen.toNat = 4 + c.toNat / 32 % 4

/-- R130, an inference of the spec: bytes with bit 7 set after a completed packet raise nothing (an
entry NONE each: log 8), disturb neither STATUS nor the LAST_ registers, and fill BUF from index COUNT
up to index 7; the bytes beyond are dropped. Every other byte of BUF stays, and nothing else changes. -/
def Obligations.TrailingBytesRaiseNothing : Prop :=
  ∀ (s : State) (bytes : List Byte), s.Inv → 2 ≤ s.count.toNat → s.dlen.toNat ≤ s.count.toNat →
    (∀ b ∈ bytes, 128 ≤ b.toNat) →
    ∃ t, feeds bytes s = some t ∧ t.events = s.events ++ List.replicate bytes.length .none ∧
      t.count.toNat = min 8 (s.count.toNat + bytes.length) ∧ t.dlen = s.dlen ∧
      (∀ i, t.buf.get? i =
        if s.count.toNat ≤ i ∧ i < min 8 (s.count.toNat + bytes.length) then bytes[i - s.count.toNat]?
        else s.buf.get? i) ∧
      t.status = s.status ∧ t.lastAxis = s.lastAxis ∧ t.lastFc = s.lastFc ∧ t.lastValue = s.lastValue ∧
      t.tx = s.tx ∧ t.unitOut = s.unitOut ∧ t.inputs = s.inputs ∧ t.freeCount = s.freeCount

/-! ### DECODE -/

/-- R171: a packet whose checksum fails changes STATUS and nothing else of the session state, and
raises CSFAIL. -/
def Obligations.ChecksumFailureWritesStatusOnly : Prop :=
  ∀ s : State, s.count.toNat = s.dlen.toNat → 4 ≤ s.dlen.toNat →
    byteSum ((List.range (s.dlen.toNat - 1)).map s.bufByte) % 256 % 128 ≠
      (s.bufByte (s.dlen.toNat - 1)).toNat % 128 →
    exec (.decode s.dlen.toNat) s =
      .next { s with status := .checksumFailed, events := s.events ++ [.csfail] }

/-- R170, R172 to R176, with the widths and the dispatch of the spec's decisions D4, D12: a packet
whose checksum passes is recorded and reported, and nothing else changes. -/
def Obligations.AcceptedPacketIsRecordedAndReported : Prop :=
  ∀ s : State, s.count.toNat = s.dlen.toNat → 4 ≤ s.dlen.toNat →
    byteSum ((List.range (s.dlen.toNat - 1)).map s.bufByte) % 256 % 128 =
      (s.bufByte (s.dlen.toNat - 1)).toNat % 128 →
    ∃ (axis : Axis) (fc : Fc) (value : Value),
      axis.toNat = (s.bufByte 0).toNat % 128 ∧ fc.toNat = (s.bufByte 1).toNat % 32 ∧
      value = valueOf fc ((List.range' 2 (s.dlen.toNat - 3)).map fun i => (s.bufByte i).setWidth 7) ∧
      exec (.decode s.dlen.toNat) s =
        .next { s with
          status := .success
          lastAxis := axis
          lastFc := fc
          lastValue := value
          events := s.events ++ [reportFor axis fc value] }

/-- The spec's decision D16 (R180; log 10): DECODE is refused by name other than as FEED calls it. -/
def Obligations.DecodeRefusedOutsideFeed : Prop :=
  ∀ (len : Nat) (s : State),
    (len < 4 ∨ 7 < len ∨ s.count.toNat ≠ len ∨ s.dlen.toNat ≠ len) →
    exec (.decode len) s = .refused .decodeOutsideFeed

/-! ### The function-code rows -/

/-- R190, R191: MOVE_ABS and ROTATE send ENCODE of their operand as given. -/
def Obligations.MoveAndRotateSendTheirOperand : Prop :=
  ∀ (axis : Axis) (x : Value) (s : State),
    exec (.moveAbs (.send axis x)) s = .next { s with tx := s.tx ++ packetOf 0x01 axis.toNat (wrap28 x) } ∧
    exec (.rotate (.send axis x)) s = .next { s with tx := s.tx ++ packetOf 0x0A axis.toNat (wrap28 x) }

/-- R192: RESET_ORIGIN sends the four bytes aa 80 80 cc with cc = 0x80 | aa. -/
def Obligations.ResetOriginSendsFourBytes : Prop :=
  ∀ (axis : Axis) (s : State), exec (.resetOrigin (.send axis ())) s =
    .next { s with tx := s.tx ++
      [BitVec.ofNat 8 axis.toNat, 0x80, 0x80, BitVec.ofNat 8 (128 + axis.toNat)] }

/-- R193 to R197: SET_MAX_SPEED, SET_MAX_ACCEL, SET_MAIN_GAIN, SET_SPEED_GAIN and SET_INT_GAIN send
ENCODE of their operand clamped to [1, 127], in 4 bytes up to 63 and in 5 bytes from 64. -/
def Obligations.SettersSendClampedOperand : Prop :=
  ∀ row ∈ settersSent, ∀ (axis : Axis) (x : Value) (s : State),
    exec (row.2 axis x) s =
      .next { s with tx := s.tx ++ packetOf row.1.toNat axis.toNat (clampInt x.toInt) } ∧
    (packetOf row.1.toNat axis.toNat (clampInt x.toInt)).length = if x.toInt ≤ 63 then 4 else 5

/-- R198, R199: SET_CONFIG and PARAM_READ send ENCODE of their byte, zero-extended and not
interpreted. -/
def Obligations.ByteCommandsSendTheirByte : Prop :=
  ∀ (axis : Axis) (x : Byte) (s : State),
    exec (.setConfig (.send axis x)) s = .next { s with tx := s.tx ++ packetOf 0x07 axis.toNat x.toNat } ∧
    exec (.paramRead (.send axis x)) s = .next { s with tx := s.tx ++ packetOf 0x0E axis.toNat x.toNat }

/-- R210: ABS_POS_REPORT. Received from any state, in one step (log 6), a packet that passes is
decoded as signed and raises POS with its value, and one that fails raises CSFAIL; on transmit it is
a plain ENCODE. -/
def Obligations.PositionReportBothDirections : Prop :=
  (∀ (axis : Axis) (data : List Group) (check : BitVec 7) (s : State), 1 ≤ data.length → data.length ≤ 4 →
    ∃ t, exec (.absPosReport (.recv axis data check)) s = .next t ∧ Arrives 0x1B axis data check s t ∧
      valueOf 0x1B data = BitVec.ofInt 32 (signedNumber data) ∧
      ∀ v, reportFor axis 0x1B v = .pos v) ∧
  (∀ (axis : Axis) (x : Value) (s : State), exec (.absPosReport (.send axis x)) s =
    .next { s with tx := s.tx ++ packetOf 0x1B axis.toNat (wrap28 x) })

/-- R211: FC_02 to FC_06, FC_08, FC_09, FC_0B to FC_0D, FC_0F, FC_13, FC_16 to FC_1A, FC_1C to FC_1F.
Received from any state, in one step (log 6), a packet that passes is recorded and raises the generic
report; on
transmit each is a plain ENCODE. -/
def Obligations.UnnamedCodesBothDirections : Prop :=
  (∀ row ∈ unnamedReceived, ∀ (axis : Axis) (data : List Group) (check : BitVec 7) (s : State),
    1 ≤ data.length → data.length ≤ 4 →
    ∃ t, exec (row.2 axis data check) s = .next t ∧ Arrives row.1 axis data check s t ∧
      ∀ v, reportFor axis row.1 v = .gen axis row.1 v) ∧
  (∀ row ∈ unnamedSent, ∀ (axis : Axis) (x : Value) (s : State), exec (row.2 axis x) s =
    .next { s with tx := s.tx ++ packetOf row.1.toNat axis.toNat (wrap28 x) })

/-- R66, R190 and R211 (corner cases): the ten command codes, when received, raise the generic
report, in one step (log 6). -/
def Obligations.CommandCodesReceivedAreGeneric : Prop :=
  ∀ row ∈ namedReceived, ∀ (axis : Axis) (data : List Group) (check : BitVec 7) (s : State),
    1 ≤ data.length → data.length ≤ 4 →
    ∃ t, exec (row.2 axis data check) s = .next t ∧ Arrives row.1 axis data check s t ∧
      ∀ v, reportFor axis row.1 v = .gen axis row.1 v

/-- R157, an inference of the spec: the bytes ENCODE emits for a supported argument, fed back byte
by byte to a block in any state, are accepted in the last FEED and in no earlier one, which adds an
entry NONE (log 8). The value is the argument, but for a negative argument under a function code
decoded as unsigned, where it is the argument plus 2^(7n). -/
def Obligations.EncodedPacketDecodesToItsFields : Prop :=
  ∀ (fc : Fc) (axis : Axis) (arg : Value) (s s' : State),
    -(2 ^ 27) ≤ arg.toInt → arg.toInt ≤ 2 ^ 27 - 1 →
    ∃ (p : List Byte) (t : State) (v : Value),
      exec (.encode fc (axis.setWidth 8) arg) s = .next { s with tx := s.tx ++ p } ∧
      v = (if Config.decodesUnsigned fc = true ∧ arg.toInt < 0
        then BitVec.ofInt 32 (arg.toInt + 2 ^ (7 * (p.length - 3))) else arg) ∧
      feeds p s' = some t ∧
      t.events = s'.events ++ List.replicate (p.length - 1) .none ++
        [if fc = 0x1B then .pos arg else .gen axis fc v] ∧
      t.status = .success ∧ t.lastAxis = axis ∧ t.lastFc = fc ∧ t.lastValue = v

/-! ### Encoding -/

/-- R60, R66, R70: the move that encodes a well-formed instruction decodes to it, with nothing left.
That a whole packet is one move is log 6, that a command is one is log 7. -/
def Obligations.DecodeOfEncodeIsTheInstruction : Prop :=
  ∀ (i : Instr) (r : Request), i.wellFormed = true → encode i = some r → decode r = .run i none

/-- R70: exactly the seven units have no encoding. -/
def Obligations.ExactlyTheUnitsHaveNoEncoding : Prop :=
  ∀ i : Instr, encode i = none ↔ isUnit i = true

/-- R70: every header of a PKT row, at every axis id and length code, decodes to that row. The groups
and the checksum of zeros are those of the table word (log 6). -/
def Obligations.EveryHeaderDecodesToItsRow : Prop :=
  ∀ row ∈ (0x1B, fun a d c => Instr.absPosReport (.recv a d c)) :: namedReceived ++ unnamedReceived,
    ∀ (axis : Axis) (lc : BitVec 2),
      decodeTableWord 16 (256 * axis.toNat + 128 + 32 * lc.toNat + row.1.toNat) =
        some (row.2 axis (List.replicate (lc.toNat + 1) 0) 0)

/-- Packets and pulse vectors written out from R60 and R70 (vectors S1, P8, V-CMD of the spec), in the
model's own moves: that a run of bytes which starts with a packet is that packet, that any other run is
the FEED of its first byte with the rest left, that a pulse vector of 3 bits is given in 8 and that its
operands are 0, are log 6; the command is a move of log 7; that the vector 011 starts with FEED is the
spec's decision D3 (log 5). -/
def Obligations.WrittenOutMovesDecode : Prop :=
  decode (.rx [0x00, 0x81, 0x80, 0x81]) = .run (.moveAbs (.recv 0 [0x00] 0x01)) none ∧
  decode (.rx [0x7F, 0xFB, 0xC0, 0x80, 0x80, 0x80, 0xBA]) =
    .run (.absPosReport (.recv 127 [0x40, 0, 0, 0] 0x3A)) none ∧
  decode (.rx [0x85, 0x81]) = .run (.feed 0x85) (some (.rx [0x81])) ∧
  decode (.command 0x14 3 100) = .run (.setMaxSpeed (.send 3 100)) none ∧
  decodeTableWord 8 0b100 = some .reset ∧ decodeTableWord 8 0b011 = some (.feed 0) ∧
  decodeTableWord 8 0b010 = some (.encode 0 0 0) ∧ decodeTableWord 8 0b000 = none

/-- R47, R120 and the model's choice of log 6: the instruction a run of received bytes starts with
does to any state what the FEEDs of the bytes it takes do, and the rest of the run is left. -/
def Obligations.ReceivedRunIsItsFeeds : Prop :=
  ∀ (bytes : List Byte) (i : Instr) (rest : Option Request), decode (.rx bytes) = .run i rest →
    ∃ taken left : List Byte, bytes = taken ++ left ∧ taken ≠ [] ∧
      rest = (if left = [] then none else some (.rx left)) ∧
      ∀ s t : State, exec i s = .next t ↔ feeds taken s = some t

/-! ### The step -/

/-- R47, R284 and the model's choice of log 4: a step runs the instruction the host's next move starts
with, with what is left of the move put before the later moves; with no move, or a move of no
pulse, the block holds its state (R70, R259). -/
def Obligations.StepRunsTheDecodedInstruction : Prop :=
  (∀ (s : State) (r : Request) (rs : List Request) (i : Instr) (rest : Option Request),
    s.inputs = r :: rs → decode r = .run i rest →
    step s = exec i { s with inputs := rest.toList ++ rs }) ∧
  (∀ s : State, s.inputs = [] → step s = .next s) ∧
  (∀ (s : State) (r : Request) (rs : List Request), s.inputs = r :: rs → decode r = .idle →
    step s = .next { s with inputs := rs })

/-- The spec's decision D3 (R70; log 5), for every vector of two or three pulses: RESET is performed
first, then FEED, then ENCODE, one a step. After 111, 101 and 110 RESET comes first, so nothing is asked
of the state; 011 needs a legal DLEN (R23), as any FEED does (log 10). -/
def Obligations.SimultaneousPulsesInOrder : Prop :=
  ∀ (s : State) (rs : List Request) (b : Byte) (c : CmdPort),
    (s.inputs = .ports ⟨true, some c, some b⟩ :: rs →
      ∃ t1 t2 t3 u1 u2, exec .reset { s with inputs := rs } = .next t1 ∧
        exec (.feed b) t1 = .next t2 ∧ exec (.encode c.fc c.axis c.arg) t2 = .next t3 ∧
        step s = .next u1 ∧ step u1 = .next u2 ∧ step u2 = .next t3) ∧
    (s.inputs = .ports ⟨true, none, some b⟩ :: rs →
      ∃ t1 t2 u1, exec .reset { s with inputs := rs } = .next t1 ∧ exec (.feed b) t1 = .next t2 ∧
        step s = .next u1 ∧ step u1 = .next t2) ∧
    (s.inputs = .ports ⟨true, some c, none⟩ :: rs →
      ∃ t1 t2 u1, exec .reset { s with inputs := rs } = .next t1 ∧
        exec (.encode c.fc c.axis c.arg) t1 = .next t2 ∧
        step s = .next u1 ∧ step u1 = .next t2) ∧
    (s.LegalDlen → s.inputs = .ports ⟨false, some c, some b⟩ :: rs →
      ∃ t2 t3 u2, exec (.feed b) { s with inputs := rs } = .next t2 ∧
        exec (.encode c.fc c.axis c.arg) t2 = .next t3 ∧
        step s = .next u2 ∧ step u2 = .next t3)

/-- R33: the state after reset meets the invariant. -/
def Obligations.ResetStateMeetsInvariant : Prop := State.reset.Inv

/-- R33, an inference of the spec: every step keeps the invariant, from every state that meets it. -/
def Obligations.StepKeepsInvariant : Prop :=
  ∀ s t : State, s.Inv → step s = .next t → t.Inv

/-- R245, an inference of the spec: from a state of the invariant a step always has a next state,
but for a command operand that no port can carry (log 7). -/
def Obligations.StepNeverStops : Prop :=
  ∀ s : State, s.Inv → (∀ r ∈ s.inputs.head?, ∀ e, decode r ≠ .rejected e) → ∃ t, step s = .next t

/-- R245, an inference of the spec: every operation is total. From every state of the invariant every
well-formed instruction has a next state, DECODE where FEED calls it, with COUNT = DLEN = L (D16; log
10). Well-formed asks for 1 to 4 groups of an unpacker and of a received packet (log 11). -/
def Obligations.WellFormedInstructionsComplete : Prop :=
  ∀ (i : Instr) (s : State), s.Inv → i.wellFormed = true →
    (∀ len, i = .decode len → s.count.toNat = len ∧ s.dlen.toNat = len) → ∃ t, exec i s = .next t

/-! ### The machine as a whole -/

/-- R52, an inference of the spec: ENCODE commutes with FEED and with RESET. -/
def Obligations.EncodeCommutesWithReceivePath : Prop :=
  ∀ (s t : State) (fc : Fc) (axis : Byte) (arg : Value) (i : Instr),
    (i = .reset ∨ ∃ b, i = .feed b) → exec i s = .next t →
    ∃ u v, exec (.encode fc axis arg) s = .next u ∧ exec i u = .next v ∧
      exec (.encode fc axis arg) t = .next v

/-- R50, an inference of the spec: two states of the invariant that agree on all but the bytes of BUF
at and above COUNT, and on the free draws, agree in the same way after any FEED, its event
included. -/
def Obligations.StaleBytesAreNeverRead : Prop :=
  ∀ (s t : State) (b : Byte), s.Inv → t.Inv → AgreeBelowCount s t →
    ∃ s' t', exec (.feed b) s = .next s' ∧ exec (.feed b) t = .next t' ∧ AgreeBelowCount s' t'

/-- R33 item 6, an inference of the spec: once an address byte is held, BUF[0] has bit 7 clear until
the next RESET. -/
def Obligations.AddressByteStaysUntilReset : Prop :=
  ∀ (i : Instr) (s t : State), i ≠ .reset → 1 ≤ s.count.toNat → (s.bufByte 0).toNat < 128 →
    exec i s = .next t → 1 ≤ t.count.toNat ∧ (t.bufByte 0).toNat < 128

/-- R24 to R27: only RESET returns STATUS to PENDING, and no instruction but RESET changes a LAST_
register without leaving STATUS = SUCCESS. That RESET alone returns it is the spec's decision
D8. -/
def Obligations.OnlyResetReturnsToPending : Prop :=
  ∀ (i : Instr) (s t : State), i ≠ .reset → exec i s = .next t →
    (t.status = .pending → s.status = .pending ∧ t.lastAxis = s.lastAxis ∧ t.lastFc = s.lastFc ∧
      t.lastValue = s.lastValue) ∧
    (t.lastAxis ≠ s.lastAxis ∨ t.lastFc ≠ s.lastFc ∨ t.lastValue ≠ s.lastValue → t.status = .success)

/-- R31, R34, C11 (log 8): no instruction takes back a byte of the TX stream or an event. -/
def Obligations.HistoriesOnlyGrow : Prop :=
  ∀ (i : Instr) (s t : State), exec i s = .next t → s.tx <+: t.tx ∧ s.events <+: t.events

/-- R20, R150, R52: no instruction writes both the session state and the TX stream: one that emits a
byte leaves COUNT, DLEN, STATUS, the LAST_ registers, BUF and the event stream. -/
def Obligations.EmittingLeavesSessionState : Prop :=
  ∀ (i : Instr) (s t : State), exec i s = .next t → t.tx ≠ s.tx → t = { s with tx := t.tx }
end

