-- ==== Sys2Proof/Laws/State.lean ====
section
/-! SUPPORT. One lemma per field per named update of the state, each true by unfolding the update once. -/

namespace Sys2Proof.Machine

/-! ### restart -/

@[simp] theorem State.restart_count (s : State) : (State.restart s).count = 0 := rfl
@[simp] theorem State.restart_dlen (s : State) : (State.restart s).dlen = 0 := rfl
@[simp] theorem State.restart_status (s : State) : (State.restart s).status = s.status := rfl
@[simp] theorem State.restart_lastAxis (s : State) : (State.restart s).lastAxis = s.lastAxis := rfl
@[simp] theorem State.restart_lastFc (s : State) : (State.restart s).lastFc = s.lastFc := rfl
@[simp] theorem State.restart_lastValue (s : State) : (State.restart s).lastValue = s.lastValue := rfl
@[simp] theorem State.restart_buf (s : State) : (State.restart s).buf = s.buf := rfl
@[simp] theorem State.restart_tx (s : State) : (State.restart s).tx = s.tx := rfl
@[simp] theorem State.restart_events (s : State) : (State.restart s).events = s.events := rfl
@[simp] theorem State.restart_unitOut (s : State) : (State.restart s).unitOut = s.unitOut := rfl
@[simp] theorem State.restart_inputs (s : State) : (State.restart s).inputs = s.inputs := rfl
@[simp] theorem State.restart_freeCount (s : State) : (State.restart s).freeCount = s.freeCount := rfl

/-! ### append -/

@[simp] theorem State.append_count (s : State) (b : Byte) : (State.append s b).count = s.count + 1 := rfl
@[simp] theorem State.append_dlen (s : State) (b : Byte) : (State.append s b).dlen = s.dlen := rfl
@[simp] theorem State.append_status (s : State) (b : Byte) : (State.append s b).status = s.status := rfl
@[simp] theorem State.append_lastAxis (s : State) (b : Byte) : (State.append s b).lastAxis = s.lastAxis := rfl
@[simp] theorem State.append_lastFc (s : State) (b : Byte) : (State.append s b).lastFc = s.lastFc := rfl
@[simp] theorem State.append_lastValue (s : State) (b : Byte) : (State.append s b).lastValue = s.lastValue := rfl
@[simp] theorem State.append_buf (s : State) (b : Byte) : (State.append s b).buf = s.buf.set s.count.toNat b := rfl
@[simp] theorem State.append_tx (s : State) (b : Byte) : (State.append s b).tx = s.tx := rfl
@[simp] theorem State.append_events (s : State) (b : Byte) : (State.append s b).events = s.events := rfl
@[simp] theorem State.append_unitOut (s : State) (b : Byte) : (State.append s b).unitOut = s.unitOut := rfl
@[simp] theorem State.append_inputs (s : State) (b : Byte) : (State.append s b).inputs = s.inputs := rfl
@[simp] theorem State.append_freeCount (s : State) (b : Byte) : (State.append s b).freeCount = s.freeCount := rfl

/-! ### declare -/

@[simp] theorem State.declare_count (s : State) (len : BitVec 3) : (State.declare s len).count = s.count := rfl
@[simp] theorem State.declare_dlen (s : State) (len : BitVec 3) : (State.declare s len).dlen = len := rfl
@[simp] theorem State.declare_status (s : State) (len : BitVec 3) : (State.declare s len).status = s.status := rfl
@[simp] theorem State.declare_lastAxis (s : State) (len : BitVec 3) : (State.declare s len).lastAxis = s.lastAxis := rfl
@[simp] theorem State.declare_lastFc (s : State) (len : BitVec 3) : (State.declare s len).lastFc = s.lastFc := rfl
@[simp] theorem State.declare_lastValue (s : State) (len : BitVec 3) : (State.declare s len).lastValue = s.lastValue := rfl
@[simp] theorem State.declare_buf (s : State) (len : BitVec 3) : (State.declare s len).buf = s.buf := rfl
@[simp] theorem State.declare_tx (s : State) (len : BitVec 3) : (State.declare s len).tx = s.tx := rfl
@[simp] theorem State.declare_events (s : State) (len : BitVec 3) : (State.declare s len).events = s.events := rfl
@[simp] theorem State.declare_unitOut (s : State) (len : BitVec 3) : (State.declare s len).unitOut = s.unitOut := rfl
@[simp] theorem State.declare_inputs (s : State) (len : BitVec 3) : (State.declare s len).inputs = s.inputs := rfl
@[simp] theorem State.declare_freeCount (s : State) (len : BitVec 3) : (State.declare s len).freeCount = s.freeCount := rfl

/-! ### record -/

@[simp] theorem State.record_count (s : State) (axis : Axis) (fc : Fc) (value : Value) : (State.record s axis fc value).count = s.count := rfl
@[simp] theorem State.record_dlen (s : State) (axis : Axis) (fc : Fc) (value : Value) : (State.record s axis fc value).dlen = s.dlen := rfl
@[simp] theorem State.record_status (s : State) (axis : Axis) (fc : Fc) (value : Value) : (State.record s axis fc value).status = .success := rfl
@[simp] theorem State.record_lastAxis (s : State) (axis : Axis) (fc : Fc) (value : Value) : (State.record s axis fc value).lastAxis = axis := rfl
@[simp] theorem State.record_lastFc (s : State) (axis : Axis) (fc : Fc) (value : Value) : (State.record s axis fc value).lastFc = fc := rfl
@[simp] theorem State.record_lastValue (s : State) (axis : Axis) (fc : Fc) (value : Value) : (State.record s axis fc value).lastValue = value := rfl
@[simp] theorem State.record_buf (s : State) (axis : Axis) (fc : Fc) (value : Value) : (State.record s axis fc value).buf = s.buf := rfl
@[simp] theorem State.record_tx (s : State) (axis : Axis) (fc : Fc) (value : Value) : (State.record s axis fc value).tx = s.tx := rfl
@[simp] theorem State.record_events (s : State) (axis : Axis) (fc : Fc) (value : Value) : (State.record s axis fc value).events = s.events := rfl
@[simp] theorem State.record_unitOut (s : State) (axis : Axis) (fc : Fc) (value : Value) : (State.record s axis fc value).unitOut = s.unitOut := rfl
@[simp] theorem State.record_inputs (s : State) (axis : Axis) (fc : Fc) (value : Value) : (State.record s axis fc value).inputs = s.inputs := rfl
@[simp] theorem State.record_freeCount (s : State) (axis : Axis) (fc : Fc) (value : Value) : (State.record s axis fc value).freeCount = s.freeCount := rfl

/-! ### recordFailure -/

@[simp] theorem State.recordFailure_count (s : State) : (State.recordFailure s).count = s.count := rfl
@[simp] theorem State.recordFailure_dlen (s : State) : (State.recordFailure s).dlen = s.dlen := rfl
@[simp] theorem State.recordFailure_status (s : State) : (State.recordFailure s).status = .checksumFailed := rfl
@[simp] theorem State.recordFailure_lastAxis (s : State) : (State.recordFailure s).lastAxis = s.lastAxis := rfl
@[simp] theorem State.recordFailure_lastFc (s : State) : (State.recordFailure s).lastFc = s.lastFc := rfl
@[simp] theorem State.recordFailure_lastValue (s : State) : (State.recordFailure s).lastValue = s.lastValue := rfl
@[simp] theorem State.recordFailure_buf (s : State) : (State.recordFailure s).buf = s.buf := rfl
@[simp] theorem State.recordFailure_tx (s : State) : (State.recordFailure s).tx = s.tx := rfl
@[simp] theorem State.recordFailure_events (s : State) : (State.recordFailure s).events = s.events := rfl
@[simp] theorem State.recordFailure_unitOut (s : State) : (State.recordFailure s).unitOut = s.unitOut := rfl
@[simp] theorem State.recordFailure_inputs (s : State) : (State.recordFailure s).inputs = s.inputs := rfl
@[simp] theorem State.recordFailure_freeCount (s : State) : (State.recordFailure s).freeCount = s.freeCount := rfl

/-! ### raise -/

@[simp] theorem State.raise_count (s : State) (e : Event) : (State.raise s e).count = s.count := rfl
@[simp] theorem State.raise_dlen (s : State) (e : Event) : (State.raise s e).dlen = s.dlen := rfl
@[simp] theorem State.raise_status (s : State) (e : Event) : (State.raise s e).status = s.status := rfl
@[simp] theorem State.raise_lastAxis (s : State) (e : Event) : (State.raise s e).lastAxis = s.lastAxis := rfl
@[simp] theorem State.raise_lastFc (s : State) (e : Event) : (State.raise s e).lastFc = s.lastFc := rfl
@[simp] theorem State.raise_lastValue (s : State) (e : Event) : (State.raise s e).lastValue = s.lastValue := rfl
@[simp] theorem State.raise_buf (s : State) (e : Event) : (State.raise s e).buf = s.buf := rfl
@[simp] theorem State.raise_tx (s : State) (e : Event) : (State.raise s e).tx = s.tx := rfl
@[simp] theorem State.raise_events (s : State) (e : Event) : (State.raise s e).events = s.events ++ [e] := rfl
@[simp] theorem State.raise_unitOut (s : State) (e : Event) : (State.raise s e).unitOut = s.unitOut := rfl
@[simp] theorem State.raise_inputs (s : State) (e : Event) : (State.raise s e).inputs = s.inputs := rfl
@[simp] theorem State.raise_freeCount (s : State) (e : Event) : (State.raise s e).freeCount = s.freeCount := rfl

/-! ### transmit -/

@[simp] theorem State.transmit_count (s : State) (bytes : List Byte) : (State.transmit s bytes).count = s.count := rfl
@[simp] theorem State.transmit_dlen (s : State) (bytes : List Byte) : (State.transmit s bytes).dlen = s.dlen := rfl
@[simp] theorem State.transmit_status (s : State) (bytes : List Byte) : (State.transmit s bytes).status = s.status := rfl
@[simp] theorem State.transmit_lastAxis (s : State) (bytes : List Byte) : (State.transmit s bytes).lastAxis = s.lastAxis := rfl
@[simp] theorem State.transmit_lastFc (s : State) (bytes : List Byte) : (State.transmit s bytes).lastFc = s.lastFc := rfl
@[simp] theorem State.transmit_lastValue (s : State) (bytes : List Byte) : (State.transmit s bytes).lastValue = s.lastValue := rfl
@[simp] theorem State.transmit_buf (s : State) (bytes : List Byte) : (State.transmit s bytes).buf = s.buf := rfl
@[simp] theorem State.transmit_tx (s : State) (bytes : List Byte) : (State.transmit s bytes).tx = s.tx ++ bytes := rfl
@[simp] theorem State.transmit_events (s : State) (bytes : List Byte) : (State.transmit s bytes).events = s.events := rfl
@[simp] theorem State.transmit_unitOut (s : State) (bytes : List Byte) : (State.transmit s bytes).unitOut = s.unitOut := rfl
@[simp] theorem State.transmit_inputs (s : State) (bytes : List Byte) : (State.transmit s bytes).inputs = s.inputs := rfl
@[simp] theorem State.transmit_freeCount (s : State) (bytes : List Byte) : (State.transmit s bytes).freeCount = s.freeCount := rfl

/-! ### emitUnit -/

@[simp] theorem State.emitUnit_count (s : State) (out : UnitOut) : (State.emitUnit s out).count = s.count := rfl
@[simp] theorem State.emitUnit_dlen (s : State) (out : UnitOut) : (State.emitUnit s out).dlen = s.dlen := rfl
@[simp] theorem State.emitUnit_status (s : State) (out : UnitOut) : (State.emitUnit s out).status = s.status := rfl
@[simp] theorem State.emitUnit_lastAxis (s : State) (out : UnitOut) : (State.emitUnit s out).lastAxis = s.lastAxis := rfl
@[simp] theorem State.emitUnit_lastFc (s : State) (out : UnitOut) : (State.emitUnit s out).lastFc = s.lastFc := rfl
@[simp] theorem State.emitUnit_lastValue (s : State) (out : UnitOut) : (State.emitUnit s out).lastValue = s.lastValue := rfl
@[simp] theorem State.emitUnit_buf (s : State) (out : UnitOut) : (State.emitUnit s out).buf = s.buf := rfl
@[simp] theorem State.emitUnit_tx (s : State) (out : UnitOut) : (State.emitUnit s out).tx = s.tx := rfl
@[simp] theorem State.emitUnit_events (s : State) (out : UnitOut) : (State.emitUnit s out).events = s.events := rfl
@[simp] theorem State.emitUnit_unitOut (s : State) (out : UnitOut) : (State.emitUnit s out).unitOut = s.unitOut ++ [out] := rfl
@[simp] theorem State.emitUnit_inputs (s : State) (out : UnitOut) : (State.emitUnit s out).inputs = s.inputs := rfl
@[simp] theorem State.emitUnit_freeCount (s : State) (out : UnitOut) : (State.emitUnit s out).freeCount = s.freeCount := rfl

/-! ### withInputs -/

@[simp] theorem State.withInputs_count (s : State) (rs : List Request) : (State.withInputs s rs).count = s.count := rfl
@[simp] theorem State.withInputs_dlen (s : State) (rs : List Request) : (State.withInputs s rs).dlen = s.dlen := rfl
@[simp] theorem State.withInputs_status (s : State) (rs : List Request) : (State.withInputs s rs).status = s.status := rfl
@[simp] theorem State.withInputs_lastAxis (s : State) (rs : List Request) : (State.withInputs s rs).lastAxis = s.lastAxis := rfl
@[simp] theorem State.withInputs_lastFc (s : State) (rs : List Request) : (State.withInputs s rs).lastFc = s.lastFc := rfl
@[simp] theorem State.withInputs_lastValue (s : State) (rs : List Request) : (State.withInputs s rs).lastValue = s.lastValue := rfl
@[simp] theorem State.withInputs_buf (s : State) (rs : List Request) : (State.withInputs s rs).buf = s.buf := rfl
@[simp] theorem State.withInputs_tx (s : State) (rs : List Request) : (State.withInputs s rs).tx = s.tx := rfl
@[simp] theorem State.withInputs_events (s : State) (rs : List Request) : (State.withInputs s rs).events = s.events := rfl
@[simp] theorem State.withInputs_unitOut (s : State) (rs : List Request) : (State.withInputs s rs).unitOut = s.unitOut := rfl
@[simp] theorem State.withInputs_inputs (s : State) (rs : List Request) : (State.withInputs s rs).inputs = rs := rfl
@[simp] theorem State.withInputs_freeCount (s : State) (rs : List Request) : (State.withInputs s rs).freeCount = s.freeCount := rfl

/-! ### resetOp -/

@[simp] theorem resetOp_count (s : State) : (resetOp s).count = 0 := rfl
@[simp] theorem resetOp_dlen (s : State) : (resetOp s).dlen = 0 := rfl
@[simp] theorem resetOp_status (s : State) : (resetOp s).status = .pending := rfl
@[simp] theorem resetOp_lastAxis (s : State) : (resetOp s).lastAxis = Config.freeAxis s.freeCount := rfl
@[simp] theorem resetOp_lastFc (s : State) : (resetOp s).lastFc = Config.freeFc s.freeCount := rfl
@[simp] theorem resetOp_lastValue (s : State) : (resetOp s).lastValue = Config.freeValue s.freeCount := rfl
@[simp] theorem resetOp_buf (s : State) : (resetOp s).buf = [] := rfl
@[simp] theorem resetOp_tx (s : State) : (resetOp s).tx = s.tx := rfl
@[simp] theorem resetOp_events (s : State) : (resetOp s).events = s.events := rfl
@[simp] theorem resetOp_unitOut (s : State) : (resetOp s).unitOut = s.unitOut := rfl
@[simp] theorem resetOp_inputs (s : State) : (resetOp s).inputs = s.inputs := rfl
@[simp] theorem resetOp_freeCount (s : State) : (resetOp s).freeCount = s.freeCount + 1 := rfl

/-! ### BUF is read through `buf` and `freeCount` alone -/

theorem State.bufByte_congr {s t : State} (hb : t.buf = s.buf) (hf : t.freeCount = s.freeCount) (i : Nat) :
    t.bufByte i = s.bufByte i := by
  simp [State.bufByte, hb, hf]

/-- A byte that has been written reads as written. -/
theorem State.bufByte_of_get? {s : State} {i : Nat} {b : Byte} (h : s.buf.get? i = some b) :
    s.bufByte i = b := by
  simp [State.bufByte, h]

theorem State.bufBytes_congr {s t : State} (h : ∀ i, t.bufByte i = s.bufByte i) (i n : Nat) :
    t.bufBytes i n = s.bufBytes i n := by
  simp [State.bufBytes, h]

@[simp] theorem State.restart_bufByte (s : State) (i : Nat) : (State.restart s).bufByte i = s.bufByte i := rfl
@[simp] theorem State.restart_bufBytes (s : State) (i n : Nat) : (State.restart s).bufBytes i n = s.bufBytes i n := rfl
@[simp] theorem State.declare_bufByte (s : State) (len : BitVec 3) (i : Nat) : (State.declare s len).bufByte i = s.bufByte i := rfl
@[simp] theorem State.declare_bufBytes (s : State) (len : BitVec 3) (i n : Nat) : (State.declare s len).bufBytes i n = s.bufBytes i n := rfl
@[simp] theorem State.record_bufByte (s : State) (axis : Axis) (fc : Fc) (value : Value) (i : Nat) : (State.record s axis fc value).bufByte i = s.bufByte i := rfl
@[simp] theorem State.record_bufBytes (s : State) (axis : Axis) (fc : Fc) (value : Value) (i n : Nat) : (State.record s axis fc value).bufBytes i n = s.bufBytes i n := rfl
@[simp] theorem State.recordFailure_bufByte (s : State) (i : Nat) : (State.recordFailure s).bufByte i = s.bufByte i := rfl
@[simp] theorem State.recordFailure_bufBytes (s : State) (i n : Nat) : (State.recordFailure s).bufBytes i n = s.bufBytes i n := rfl
@[simp] theorem State.raise_bufByte (s : State) (e : Event) (i : Nat) : (State.raise s e).bufByte i = s.bufByte i := rfl
@[simp] theorem State.raise_bufBytes (s : State) (e : Event) (i n : Nat) : (State.raise s e).bufBytes i n = s.bufBytes i n := rfl
@[simp] theorem State.transmit_bufByte (s : State) (bytes : List Byte) (i : Nat) : (State.transmit s bytes).bufByte i = s.bufByte i := rfl
@[simp] theorem State.transmit_bufBytes (s : State) (bytes : List Byte) (i n : Nat) : (State.transmit s bytes).bufBytes i n = s.bufBytes i n := rfl
@[simp] theorem State.emitUnit_bufByte (s : State) (out : UnitOut) (i : Nat) : (State.emitUnit s out).bufByte i = s.bufByte i := rfl
@[simp] theorem State.emitUnit_bufBytes (s : State) (out : UnitOut) (i n : Nat) : (State.emitUnit s out).bufBytes i n = s.bufBytes i n := rfl
@[simp] theorem State.withInputs_bufByte (s : State) (rs : List Request) (i : Nat) : (State.withInputs s rs).bufByte i = s.bufByte i := rfl
@[simp] theorem State.withInputs_bufBytes (s : State) (rs : List Request) (i n : Nat) : (State.withInputs s rs).bufBytes i n = s.bufBytes i n := rfl

end Sys2Proof.Machine
end

