-- ==== Sys2Proof/Laws/Memory.lean ====
section
/-! SUPPORT. The laws of the accumulation buffer: a byte written is the byte read, a write leaves every
other index alone, and every operation keeps the canonical form. -/

namespace Sys2Proof.Machine

@[simp] theorem Memory.get?_nil (i : Nat) : Memory.get? [] i = none := rfl

theorem Memory.get?_cons (k : Nat) (c : Byte) (m : Memory) (i : Nat) :
    Memory.get? ((k, c) :: m) i = if k = i then some c else Memory.get? m i := rfl

@[simp] theorem Memory.get?_set_self (m : Memory) (i : Nat) (b : Byte) :
    (m.set i b).get? i = some b := by
  induction m with
  | nil => simp [Memory.set, Memory.get?_cons]
  | cons cell m ih =>
    obtain ⟨k, c⟩ := cell
    unfold Memory.set
    split
    · simp [Memory.get?_cons]
    · split
      · simp [Memory.get?_cons]
      · rename_i h1 h2
        have hk : ¬ k = i := fun h => h2 h.symm
        rw [Memory.get?_cons, if_neg hk, ih]

theorem Memory.get?_set_ne (m : Memory) {i j : Nat} (b : Byte) (h : i ≠ j) :
    (m.set i b).get? j = m.get? j := by
  induction m with
  | nil => simp [Memory.set, Memory.get?_cons, h]
  | cons cell m ih =>
    obtain ⟨k, c⟩ := cell
    unfold Memory.set
    split
    · rw [Memory.get?_cons, if_neg h]
    · split
      · rename_i h2
        subst h2
        rw [Memory.get?_cons, Memory.get?_cons, if_neg h, if_neg h]
      · rw [Memory.get?_cons, Memory.get?_cons, ih]

theorem Memory.get?_set (m : Memory) (i j : Nat) (b : Byte) :
    (m.set i b).get? j = if i = j then some b else m.get? j := by
  split
  · rename_i h; subst h; exact Memory.get?_set_self m i b
  · rename_i h; exact Memory.get?_set_ne m b h

theorem Memory.risingFrom_mono {m : Memory} {lo lo' : Nat} (h : lo' ≤ lo)
    (hm : Memory.risingFrom lo m = true) : Memory.risingFrom lo' m = true := by
  cases m with
  | nil => rfl
  | cons cell m =>
    obtain ⟨k, c⟩ := cell
    simp only [Memory.risingFrom, Bool.and_eq_true, decide_eq_true_eq] at hm ⊢
    exact ⟨⟨by omega, hm.1.2⟩, hm.2⟩

theorem Memory.risingFrom_set {m : Memory} {lo i : Nat} (b : Byte) (hlo : lo ≤ i)
    (hi : i < Config.bufCap) (hm : Memory.risingFrom lo m = true) :
    Memory.risingFrom lo (m.set i b) = true := by
  induction m generalizing lo with
  | nil => simp [Memory.set, Memory.risingFrom, hlo, hi]
  | cons cell m ih =>
    obtain ⟨k, c⟩ := cell
    simp only [Memory.risingFrom, Bool.and_eq_true, decide_eq_true_eq] at hm
    unfold Memory.set
    split
    · simp only [Memory.risingFrom, Bool.and_eq_true, decide_eq_true_eq]
      exact ⟨⟨hlo, hi⟩, ⟨by omega, hm.1.2⟩, hm.2⟩
    · split
      · simp only [Memory.risingFrom, Bool.and_eq_true, decide_eq_true_eq]
        rename_i h2
        subst h2
        exact ⟨⟨hlo, hi⟩, hm.2⟩
      · simp only [Memory.risingFrom, Bool.and_eq_true, decide_eq_true_eq]
        exact ⟨hm.1, ih (by omega) hm.2⟩

/-- Nothing listed is canonical: RESET's buffer. -/
@[simp] theorem Memory.wf_nil : Memory.wf [] = true := rfl

/-- A write at an index of BUF keeps the canonical form. -/
theorem Memory.wf_set {m : Memory} {i : Nat} (b : Byte) (hi : i < Config.bufCap)
    (hm : m.wf = true) : (m.set i b).wf = true :=
  Memory.risingFrom_set b (Nat.zero_le i) hi hm

/-- A canonical buffer lists no index below its lower bound. -/
theorem Memory.get?_eq_none_of_lt {m : Memory} {lo i : Nat} (h : i < lo)
    (hm : Memory.risingFrom lo m = true) : m.get? i = none := by
  induction m generalizing lo with
  | nil => rfl
  | cons cell m ih =>
    obtain ⟨k, c⟩ := cell
    simp only [Memory.risingFrom, Bool.and_eq_true, decide_eq_true_eq] at hm
    rw [Memory.get?_cons, if_neg (by omega)]
    exact ih (by omega) hm.2

/-- Canonical buffers that read alike are the same data. -/
theorem Memory.risingFrom_ext {m m' : Memory} {lo : Nat} (hm : Memory.risingFrom lo m = true)
    (hm' : Memory.risingFrom lo m' = true) (h : ∀ i, m.get? i = m'.get? i) : m = m' := by
  induction m generalizing m' lo with
  | nil =>
    cases m' with
    | nil => rfl
    | cons cell m' =>
      obtain ⟨k, c⟩ := cell
      have hk := h k
      simp [Memory.get?_cons] at hk
  | cons cell m ih =>
    obtain ⟨k, c⟩ := cell
    cases m' with
    | nil =>
      have hk := h k
      simp [Memory.get?_cons] at hk
    | cons cell' m' =>
      obtain ⟨k', c'⟩ := cell'
      simp only [Memory.risingFrom, Bool.and_eq_true, decide_eq_true_eq] at hm hm'
      have hkk : k = k' := by
        by_contra hne
        rcases Nat.lt_or_gt_of_ne hne with hlt | hlt
        · have hk := h k
          rw [Memory.get?_cons, if_pos rfl, Memory.get?_cons, if_neg (by omega),
            Memory.get?_eq_none_of_lt (by omega) hm'.2] at hk
          exact absurd hk (by simp)
        · have hk := h k'
          rw [Memory.get?_cons, if_neg (by omega), Memory.get?_cons, if_pos rfl,
            Memory.get?_eq_none_of_lt (by omega) hm.2] at hk
          exact absurd hk (by simp)
      subst hkk
      have hc := h k
      simp only [Memory.get?_cons, if_true, Option.some.injEq] at hc
      subst hc
      congr 1
      apply ih hm.2 hm'.2
      intro i
      by_cases hi : k = i
      · subst hi
        rw [Memory.get?_eq_none_of_lt (Nat.lt_succ_self k) hm.2,
          Memory.get?_eq_none_of_lt (Nat.lt_succ_self k) hm'.2]
      · simpa [Memory.get?_cons, hi] using h i

theorem Memory.wf_ext {m m' : Memory} (hm : m.wf = true) (hm' : m'.wf = true)
    (h : ∀ i, m.get? i = m'.get? i) : m = m' :=
  Memory.risingFrom_ext hm hm' h

theorem State.append_bufByte (s : State) (b : Byte) (i : Nat) :
    (s.append b).bufByte i = if s.count.toNat = i then b else s.bufByte i := by
  by_cases h : s.count.toNat = i <;> simp [State.bufByte, Memory.get?_set, h]

/-- Bytes read strictly below the write index are unchanged by it. -/
theorem State.append_bufBytes_below (s : State) (b : Byte) {i n : Nat} (h : i + n ≤ s.count.toNat) :
    (s.append b).bufBytes i n = s.bufBytes i n := by
  simp only [State.bufBytes]
  apply List.map_congr_left
  intro j hj
  rw [List.mem_range'_1] at hj
  rw [State.append_bufByte, if_neg (by omega)]

end Sys2Proof.Machine
end

