-- ==== Sys2Proof/Laws/Bytes.lean ====
section
/-! SUPPORT. The fields of wire bytes: what the packet format puts into a byte is what the decoder takes
out of it (rules R60 to R64), and bit 7 as a comparison with 128. -/

namespace Sys2Proof

theorem framingBit_eq_decide (b : Byte) : framingBit b = decide (128 ≤ b.toNat) := by
  revert b; decide

theorem framingBit_of_ge {b : Byte} (h : 128 ≤ b.toNat) : framingBit b = true := by
  rw [framingBit_eq_decide, decide_eq_true h]

theorem framingBit_of_lt {b : Byte} (h : b.toNat < 128) : framingBit b = false := by
  rw [framingBit_eq_decide, decide_eq_false (by omega)]

@[simp] theorem framingBit_addressByte (a : Axis) : framingBit (addressByte a) = false := by
  revert a; decide

@[simp] theorem framingBit_dataByte (g : Group) : framingBit (dataByte g) = true := by
  revert g; decide

@[simp] theorem framingBit_controlByte (lc : LengthCode) (fc : Fc) : framingBit (controlByte lc fc) = true := by
  revert lc fc; decide

@[simp] theorem low7_addressByte (a : Axis) : low7 (addressByte a) = a := by
  revert a; decide

@[simp] theorem low7_dataByte (g : Group) : low7 (dataByte g) = g := by
  revert g; decide

@[simp] theorem controlFc_controlByte (lc : LengthCode) (fc : Fc) : controlFc (controlByte lc fc) = fc := by
  revert lc fc; decide

@[simp] theorem controlLc_controlByte (lc : LengthCode) (fc : Fc) : controlLc (controlByte lc fc) = lc := by
  revert lc fc; decide

theorem addressByte_low7 {b : Byte} (h : framingBit b = false) : addressByte (low7 b) = b := by
  revert b; decide

theorem dataByte_low7 {b : Byte} (h : framingBit b = true) : dataByte (low7 b) = b := by
  revert b; decide

theorem controlByte_fields {b : Byte} (h : framingBit b = true) :
    controlByte (controlLc b) (controlFc b) = b := by
  revert b; decide

/-! ### The same fields by arithmetic -/

theorem addressByte_eq_ofNat (a : Axis) : addressByte a = BitVec.ofNat 8 a.toNat := by
  revert a; decide

theorem dataByte_eq_ofNat (g : Group) : dataByte g = BitVec.ofNat 8 (128 + g.toNat) := by
  revert g; decide

theorem controlByte_eq_ofNat (lc : LengthCode) (fc : Fc) :
    controlByte lc fc = BitVec.ofNat 8 (128 + 32 * lc.toNat + fc.toNat) := by
  revert lc fc; decide

theorem low7_toNat (b : Byte) : (low7 b).toNat = b.toNat % 128 := by
  revert b; decide

theorem controlFc_toNat (b : Byte) : (controlFc b).toNat = b.toNat % 32 := by
  revert b; decide

theorem controlLc_toNat (b : Byte) : (controlLc b).toNat = b.toNat / 32 % 4 := by
  revert b; decide

theorem axisMask_eq_ofNat (a : Byte) : a &&& 0x7F = BitVec.ofNat 8 (a.toNat % 128) := by
  revert a; decide

/-! ### The length code -/

theorem groupsOk_iff (g : List Group) : groupsOk g = true ↔ 1 ≤ g.length ∧ g.length ≤ 4 := by
  exact decide_eq_true_iff

theorem lengthOk_iff (n : Nat) : lengthOk n = true ↔ 4 ≤ n ∧ n ≤ 7 := by
  exact decide_eq_true_iff

theorem lengthCodeOf_toNat {n : Nat} (h1 : 1 ≤ n) (h4 : n ≤ 4) : (lengthCodeOf n).toNat = n - 1 := by
  simp only [lengthCodeOf, BitVec.toNat_ofNat]; omega

theorem groupCountOf_lengthCodeOf {n : Nat} (h1 : 1 ≤ n) (h4 : n ≤ 4) :
    groupCountOf (lengthCodeOf n) = n := by
  rw [groupCountOf, lengthCodeOf_toNat h1 h4]; omega

theorem lengthCodeOf_groupCountOf (lc : LengthCode) : lengthCodeOf (groupCountOf lc) = lc := by
  revert lc; decide

theorem groupCountOf_le (lc : LengthCode) : groupCountOf lc ≤ 4 := by
  have := lc.isLt; simp only [groupCountOf]; omega

/-! ### A packet's bytes split back into its fields -/

theorem splitBody_data (data : List Group) (check : BitVec 7) (rest : List Byte) :
    splitBody data.length (data.map dataByte ++ dataByte check :: rest) = some (data, check, rest) := by
  induction data with
  | nil => simp [splitBody]
  | cons g data ih => simp [splitBody, ih]

/-- What a split body was made of. -/
theorem splitBody_some {n : Nat} {bytes rest : List Byte} {data : List Group} {check : BitVec 7}
    (h : splitBody n bytes = some (data, check, rest)) :
    data.length = n ∧ bytes = data.map dataByte ++ dataByte check :: rest := by
  induction n generalizing bytes data with
  | zero =>
    cases bytes with
    | nil => simp [splitBody] at h
    | cons c bs =>
      simp only [splitBody] at h
      split at h
      · rename_i hc
        simp only [Option.some.injEq, Prod.mk.injEq] at h
        obtain ⟨rfl, rfl, rfl⟩ := h
        simp [dataByte_low7 hc]
      · simp at h
  | succ n ih =>
    cases bytes with
    | nil => simp [splitBody] at h
    | cons d bs =>
      simp only [splitBody] at h
      split at h
      · rename_i hd
        cases hs : splitBody n bs with
        | none => simp [hs] at h
        | some v =>
          obtain ⟨data', check', rest'⟩ := v
          simp only [hs, Option.some.injEq, Prod.mk.injEq] at h
          obtain ⟨rfl, rfl, rfl⟩ := h
          obtain ⟨hl, hb⟩ := ih hs
          simp [hl, hb, dataByte_low7 hd]
      · simp at h

theorem packetBytes_length (fc : Fc) (axis : Axis) (data : List Group) (check : BitVec 7) :
    (packetBytes fc axis data check).length = data.length + 3 := by
  simp [packetBytes]

/-- A run of bytes that starts with a packet decodes to that packet's row. -/
theorem decodeRx_packetBytes {data : List Group} (h : groupsOk data = true) (fc : Fc) (axis : Axis)
    (check : BitVec 7) (rest : List Byte) :
    decodeRx (packetBytes fc axis data check ++ rest) =
      .run (.received fc axis data check) (restRx rest) := by
  rw [groupsOk_iff] at h
  simp [packetBytes, decodeRx, groupCountOf_lengthCodeOf h.1 h.2, splitBody_data]

end Sys2Proof
end

