-- ==== Sys2Proof/Laws/Feed.lean ====
section
/-! SUPPORT. Everything a FEED can do, said once (rules R120, R126), and what a run of FEEDs does. -/

namespace Sys2Proof.Machine

/-! ### The call of DECODE -/

theorem decodeCall_next {len : Nat} {s : State} (hc : s.count.toNat = len) (hd : s.dlen.toNat = len)
    (hl : 4 ≤ len) :
    decodeCall len s = .next ((decodeOp len s).1.raise (decodeOp len s).2) := by
  have h7 : len ≤ 7 := by have := s.dlen.isLt; omega
  rw [decodeCall, if_pos ⟨hc, hd, (lengthOk_iff len).2 ⟨hl, h7⟩⟩]

theorem decodeCall_refused {len : Nat} {s : State}
    (h : len < 4 ∨ 7 < len ∨ s.count.toNat ≠ len ∨ s.dlen.toNat ≠ len) :
    decodeCall len s = .refused .decodeOutsideFeed := by
  rw [decodeCall, if_neg]
  rintro ⟨hc, hd, hl⟩
  rw [lengthOk_iff] at hl
  omega

/-- DECODE writes STATUS and, on success, the LAST_ registers; nothing else (R170). -/
theorem decodeOp_cases (len : Nat) (s : State) :
    (∃ axis fc value, decodeOp len s = (s.record axis fc value, reportOf axis fc value)) ∨
    decodeOp len s = (s.recordFailure, .csfail) := by
  unfold decodeOp
  split
  · exact .inl ⟨_, _, _, rfl⟩
  · exact .inr rfl

/-- DECODE reads BUF and nothing else of the state (R170). -/
theorem decodeOp_congr {s t : State} (h : ∀ i, t.bufByte i = s.bufByte i) (len : Nat) :
    (∃ axis fc value, decodeOp len s = (s.record axis fc value, reportOf axis fc value) ∧
      decodeOp len t = (t.record axis fc value, reportOf axis fc value)) ∨
    (decodeOp len s = (s.recordFailure, .csfail) ∧ decodeOp len t = (t.recordFailure, .csfail)) := by
  have hb := State.bufBytes_congr h
  unfold decodeOp
  rw [hb, hb, h, h, h, h]
  split
  · exact .inl ⟨_, _, _, rfl, rfl⟩
  · exact .inr ⟨rfl, rfl⟩

/-- No accepted packet reports NONE. -/
theorem reportOf_ne_none (axis : Axis) (fc : Fc) (value : Value) : reportOf axis fc value ≠ .none := by
  unfold reportOf; split <;> simp

/-! ### One FEED -/

@[simp] theorem frameMark_of_set {b : Byte} (h : framingBit b = true) (s : State) : frameMark b s = s := by
  simp [frameMark, h]

@[simp] theorem frameMark_of_clear {b : Byte} (h : framingBit b = false) (s : State) :
    frameMark b s = s.restart := by
  simp [frameMark, h]

theorem count_add_one_toNat {c : BitVec 4} (h : c.toNat < 8) : (c + 1).toNat = c.toNat + 1 := by
  revert c; decide

/-- A byte with bit 7 clear restarts accumulation in every state (R121, R126 row 1). -/
theorem feedOp_address {b : Byte} (h : framingBit b = false) (s : State) :
    feedOp b s = .next ((s.restart.append b).raise .none) := by
  simp [feedOp, h, Config.bufCap, lengthDecode, complete]

/-- A byte with bit 7 set is dropped when the buffer is full (R122, R126 row STALL). -/
theorem feedOp_full {b : Byte} (h : framingBit b = true) {s : State} (hc : 8 ≤ s.count.toNat) :
    feedOp b s = .next (s.raise .none) := by
  simp only [feedOp, frameMark_of_set h, Config.bufCap]
  rw [if_neg (by omega)]

/-- The second byte declares the length (R123, R126 row ADDR). -/
theorem feedOp_control {b : Byte} (h : framingBit b = true) {s : State} (hc : s.count = 1) :
    feedOp b s = .next (((s.append b).declare (4 + (controlLc b).setWidth 3)).raise .none) := by
  have hb : (s.append b).bufByte 1 = b := by rw [State.append_bufByte, if_pos (by simp [hc])]
  simp only [feedOp, frameMark_of_set h, Config.bufCap, lengthDecode, hc, State.append_count, hb]
  rw [if_pos (by decide), if_pos (by decide), complete, if_neg]
  simp only [State.declare_count, State.append_count, hc, State.declare_dlen]
  generalize controlLc b = lc
  revert lc; decide

theorem lengthDecode_append {b : Byte} {s : State} (h1 : s.count ≠ 1) :
    lengthDecode (s.append b) = s.append b := by
  rw [lengthDecode, if_neg]
  intro h
  apply h1
  rw [State.append_count] at h
  generalize s.count = c at h
  revert c; decide

/-- Any other byte with bit 7 set that does not complete a packet is stored (R122, R126). -/
theorem feedOp_store {b : Byte} (h : framingBit b = true) {s : State} (hc : s.count.toNat < 8)
    (h1 : s.count ≠ 1) (hd : s.count.toNat + 1 ≠ s.dlen.toNat) :
    feedOp b s = .next ((s.append b).raise .none) := by
  simp only [feedOp, frameMark_of_set h, Config.bufCap]
  rw [if_pos hc, lengthDecode_append h1, complete, if_neg]
  rw [State.append_count, count_add_one_toNat hc]
  exact hd

/-- The byte that brings COUNT to the declared length runs DECODE (R124, R126 row BODY to DONE). -/
theorem feedOp_complete {b : Byte} (h : framingBit b = true) {s : State} (hc : s.count.toNat < 8)
    (h1 : s.count ≠ 1) (hd : s.count.toNat + 1 = s.dlen.toNat) :
    feedOp b s = decodeCall s.dlen.toNat (s.append b) := by
  simp only [feedOp, frameMark_of_set h, Config.bufCap]
  rw [if_pos hc, lengthDecode_append h1, complete, if_pos]
  · rfl
  · rw [State.append_count, count_add_one_toNat hc]
    exact hd

/-- With a legal DLEN that FEED has a next state: DECODE's event is raised (R124, R133). -/
theorem feedOp_decode {b : Byte} (h : framingBit b = true) {s : State} (hc : s.count.toNat < 8)
    (h1 : s.count ≠ 1) (hd : s.count.toNat + 1 = s.dlen.toNat) (hl : 4 ≤ s.dlen.toNat) :
    feedOp b s = .next ((decodeOp s.dlen.toNat (s.append b)).1.raise
      (decodeOp s.dlen.toNat (s.append b)).2) :=
  (feedOp_complete h hc h1 hd).trans
    (decodeCall_next (by rw [State.append_count, count_add_one_toNat hc, hd]) rfl hl)

/-- The legality of DLEN decides whether a FEED has a next state. -/
theorem feedOp_cases (b : Byte) (s : State) :
    (framingBit b = false ∧ feedOp b s = .next ((s.restart.append b).raise .none)) ∨
    (framingBit b = true ∧ 8 ≤ s.count.toNat ∧ feedOp b s = .next (s.raise .none)) ∨
    (framingBit b = true ∧ s.count = 1 ∧
      feedOp b s = .next (((s.append b).declare (4 + (controlLc b).setWidth 3)).raise .none)) ∨
    (framingBit b = true ∧ s.count.toNat < 8 ∧ s.count ≠ 1 ∧ s.count.toNat + 1 ≠ s.dlen.toNat ∧
      feedOp b s = .next ((s.append b).raise .none)) ∨
    (framingBit b = true ∧ s.count.toNat < 8 ∧ s.count ≠ 1 ∧ s.count.toNat + 1 = s.dlen.toNat ∧
      4 ≤ s.dlen.toNat ∧
      feedOp b s = .next ((decodeOp s.dlen.toNat (s.append b)).1.raise
        (decodeOp s.dlen.toNat (s.append b)).2)) ∨
    (framingBit b = true ∧ s.count.toNat < 8 ∧ s.count ≠ 1 ∧ s.count.toNat + 1 = s.dlen.toNat ∧
      s.dlen.toNat < 4 ∧ feedOp b s = .refused .decodeOutsideFeed) := by
  cases h : framingBit b with
  | false => exact .inl ⟨rfl, feedOp_address h s⟩
  | true =>
    right
    by_cases hf : 8 ≤ s.count.toNat
    · exact .inl ⟨rfl, hf, feedOp_full h hf⟩
    · have hc : s.count.toNat < 8 := by omega
      by_cases h1 : s.count = 1
      · exact .inr (.inl ⟨rfl, h1, feedOp_control h h1⟩)
      · by_cases hd : s.count.toNat + 1 = s.dlen.toNat
        · by_cases hl : 4 ≤ s.dlen.toNat
          · exact .inr (.inr (.inr (.inl ⟨rfl, hc, h1, hd, hl, feedOp_decode h hc h1 hd hl⟩)))
          · refine .inr (.inr (.inr (.inr ⟨rfl, hc, h1, hd, by omega, ?_⟩)))
            rw [feedOp_complete h hc h1 hd]
            exact decodeCall_refused (by omega)
        · exact .inr (.inr (.inl ⟨rfl, hc, h1, hd, feedOp_store h hc h1 hd⟩))

/-- What no FEED writes (R120). -/
theorem feedOp_frame {b : Byte} {s t : State} (h : feedOp b s = .next t) :
    t.tx = s.tx ∧ t.unitOut = s.unitOut ∧ t.inputs = s.inputs ∧ t.freeCount = s.freeCount := by
  rcases feedOp_cases b s with ⟨-, e⟩ | ⟨-, -, e⟩ | ⟨-, -, e⟩ | ⟨-, -, -, -, e⟩ |
    ⟨-, -, -, -, -, e⟩ | ⟨-, -, -, -, -, e⟩ <;> rw [e] at h <;>
    simp only [Host.Outcome.next.injEq, reduceCtorEq] at h
  · subst h; simp
  · subst h; simp
  · subst h; simp
  · subst h; simp
  · subst h
    rcases decodeOp_cases s.dlen.toNat (s.append b) with ⟨_, _, _, hd⟩ | hd <;> simp [hd]

/-! ### Runs of FEEDs -/

theorem feedAll_cons_next {b : Byte} {s s' : State} (h : feedOp b s = .next s') (bytes : List Byte) :
    feedAll (b :: bytes) s = feedAll bytes s' := by
  simp [feedAll, h]

theorem feedAll_cons {b : Byte} {bytes : List Byte} {s t : State} (h : feedAll (b :: bytes) s = .next t) :
    ∃ s', feedOp b s = .next s' ∧ feedAll bytes s' = .next t := by
  simp only [feedAll] at h
  split at h
  · exact ⟨_, ‹_›, h⟩
  · simp at h
  · simp at h

theorem feedAll_append_next {as bs : List Byte} {s s' : State} (h : feedAll as s = .next s') :
    feedAll (as ++ bs) s = feedAll bs s' := by
  induction as generalizing s with
  | nil => simp only [feedAll, Host.Outcome.next.injEq] at h; subst h; rfl
  | cons a as ih =>
    obtain ⟨s1, h1, h2⟩ := feedAll_cons h
    rw [List.cons_append, feedAll_cons_next h1, ih h2]

/-- What every FEED keeps, a run of FEEDs keeps. -/
theorem feedAll_induct {P : State → Prop} (hP : ∀ b s t, P s → feedOp b s = .next t → P t)
    {bytes : List Byte} {s t : State} (hs : P s) (h : feedAll bytes s = .next t) : P t := by
  induction bytes generalizing s with
  | nil => simp only [feedAll, Host.Outcome.next.injEq] at h; subst h; exact hs
  | cons b bytes ih =>
    obtain ⟨s1, h1, h2⟩ := feedAll_cons h
    exact ih (hP b s s1 hs h1) h2

end Sys2Proof.Machine
end

