-- ==== Sys2Proof/Laws/Units.lean ====
section
/-! SUPPORT. The combinational units in integer arithmetic (rules R90 to R92, R100 to R104, R200). -/

namespace Sys2Proof.Machine

/-! ### The checksum unit -/

/-- SUM8 is the sum in the integers, modulo 256 (R90). -/
theorem sum8_toNat (p : List Byte) : (sum8 p).toNat = (p.map BitVec.toNat).sum % 256 := by
  induction p with
  | nil => rfl
  | cons b p ih => simp only [sum8, BitVec.toNat_add, ih, List.map_cons, List.sum_cons]; omega

theorem chkGen_eq_ofNat (p : List Byte) : chkGen p = BitVec.ofNat 8 (128 + (sum8 p).toNat % 128) := by
  unfold chkGen; generalize sum8 p = x; revert x; decide

/-- The checksum byte carries the low seven bits of the sum (R91). -/
theorem low7_chkGen (p : List Byte) : low7 (chkGen p) = low7 (sum8 p) := by
  unfold chkGen; generalize sum8 p = x; revert x; decide

theorem framingBit_chkGen (p : List Byte) : framingBit (chkGen p) = true := by
  unfold chkGen; generalize sum8 p = x; revert x; decide

theorem chkVerify_iff (p : List Byte) (c : Byte) :
    chkVerify p c = true ↔ (p.map BitVec.toNat).sum % 128 = c.toNat % 128 := by
  rw [chkVerify, decide_eq_true_iff, ← BitVec.toNat_inj, low7_toNat, low7_toNat, sum8_toNat]
  omega

/-! ### Groups -/

theorem groupSign_eq_decide (g : Group) : groupSign g = decide (64 ≤ g.toNat) := by
  revert g; decide

theorem redundantGroup_iff (g h : Group) : redundantGroup g h = true ↔
    (g.toNat = 0 ∧ h.toNat < 64) ∨ (g.toNat = 127 ∧ 64 ≤ h.toNat) := by
  rw [redundantGroup, decide_eq_true_iff, groupSign_eq_decide, decide_eq_true_iff,
    decide_eq_false_iff_not, ← BitVec.toNat_inj, ← BitVec.toNat_inj]
  rw [show (0x00 : Group).toNat = 0 from rfl, show (0x7F : Group).toNat = 127 from rfl]
  omega

/-- The four groups of a field, from the bottom, by arithmetic (R100). -/
theorem group_toNat_zero (a : ArgField) : (a.extractLsb' 0 7).toNat = a.toNat % 128 := by
  simp [BitVec.extractLsb'_toNat]

theorem group_toNat_one (a : ArgField) : (a.extractLsb' 7 7).toNat = a.toNat / 128 % 128 := by
  simp [BitVec.extractLsb'_toNat, Nat.shiftRight_eq_div_pow]

theorem group_toNat_two (a : ArgField) : (a.extractLsb' 14 7).toNat = a.toNat / 16384 % 128 := by
  simp [BitVec.extractLsb'_toNat, Nat.shiftRight_eq_div_pow]

theorem group_toNat_three (a : ArgField) : (a.extractLsb' 21 7).toNat = a.toNat / 2097152 % 128 := by
  simp [BitVec.extractLsb'_toNat, Nat.shiftRight_eq_div_pow]

/-- The integer a 28-bit field denotes (R11). -/
theorem argField_toInt (a : ArgField) :
    a.toInt = if a.toNat < 134217728 then (a.toNat : Int) else (a.toNat : Int) - 268435456 := by
  have := a.isLt
  rw [BitVec.toInt_eq_toNat_cond]
  split <;> split <;> omega

/-- VLI_PACK keeps the low groups from the top group that is not redundant (R101). -/
theorem vliPack_cases (a : ArgField) :
    let g3 := a.extractLsb' 21 7
    let g2 := a.extractLsb' 14 7
    let g1 := a.extractLsb' 7 7
    let g0 := a.extractLsb' 0 7
    (vliPack a = [g3, g2, g1, g0] ∧ (a.toInt < -1048576 ∨ 1048575 < a.toInt)) ∨
    (vliPack a = [g2, g1, g0] ∧ -1048576 ≤ a.toInt ∧ a.toInt ≤ 1048575 ∧
      (a.toInt < -8192 ∨ 8191 < a.toInt)) ∨
    (vliPack a = [g1, g0] ∧ -8192 ≤ a.toInt ∧ a.toInt ≤ 8191 ∧ (a.toInt < -64 ∨ 63 < a.toInt)) ∨
    (vliPack a = [g0] ∧ -64 ≤ a.toInt ∧ a.toInt ≤ 63) := by
  intro g3 g2 g1 g0
  have h3 := a.isLt
  have e0 : g0.toNat = _ := group_toNat_zero a
  have e1 : g1.toNat = _ := group_toNat_one a
  have e2 : g2.toNat = _ := group_toNat_two a
  have e3 : g3.toNat = _ := group_toNat_three a
  have hp : vliPack a = trimGroups [g3, g2, g1, g0] := rfl
  have hv := argField_toInt a
  rw [hp]
  generalize a.toInt = v at hv ⊢
  by_cases r3 : redundantGroup g3 g2 = true
  · by_cases r2 : redundantGroup g2 g1 = true
    · by_cases r1 : redundantGroup g1 g0 = true
      · refine .inr (.inr (.inr ?_))
        rw [trimGroups, if_pos r3, trimGroups, if_pos r2, trimGroups, if_pos r1, trimGroups]
        rw [redundantGroup_iff] at r1 r2 r3
        exact ⟨rfl, by split at hv <;> omega, by split at hv <;> omega⟩
      · refine .inr (.inr (.inl ?_))
        rw [trimGroups, if_pos r3, trimGroups, if_pos r2, trimGroups, if_neg r1]
        rw [redundantGroup_iff] at r1 r2 r3
        exact ⟨rfl, by split at hv <;> omega, by split at hv <;> omega, by split at hv <;> omega⟩
    · refine .inr (.inl ?_)
      rw [trimGroups, if_pos r3, trimGroups, if_neg r2]
      rw [redundantGroup_iff] at r2 r3
      exact ⟨rfl, by split at hv <;> omega, by split at hv <;> omega, by split at hv <;> omega⟩
  · refine .inl ?_
    rw [trimGroups, if_neg r3]
    rw [redundantGroup_iff] at r3
    exact ⟨rfl, by split at hv <;> omega⟩

theorem vliPack_length (a : ArgField) : 1 ≤ (vliPack a).length ∧ (vliPack a).length ≤ 4 := by
  rcases vliPack_cases a with ⟨h, -⟩ | ⟨h, -⟩ | ⟨h, -⟩ | ⟨h, -⟩ <;> simp [h]

/-- Shifting in a group is multiplying by 128 and adding (R103, R106). -/
theorem shiftIn_toNat (v : Value) (g : Group) :
    (shiftIn v g).toNat = (v.toNat * 128 + g.toNat) % 2 ^ 32 := by
  have hg := g.isLt
  have h1 : (v <<< 7).toNat = 2 ^ 7 * (v.toNat % 2 ^ 25) := by
    rw [BitVec.toNat_shiftLeft, Nat.shiftLeft_eq]; omega
  rw [shiftIn, BitVec.toNat_or, h1, BitVec.toNat_setWidth, Nat.mod_eq_of_lt (by omega : g.toNat < 2 ^ 32),
    ← Nat.two_pow_add_eq_or_of_lt hg]
  omega

/-- The sign extension of the first group (R103, U4). -/
theorem signExtendGroup_toNat (g : Group) :
    (g.signExtend 32).toNat = if g.toNat < 64 then g.toNat else g.toNat + 4294967168 := by
  revert g; decide

theorem groupSetWidth_toNat (g : Group) : (g.setWidth 32 : Value).toNat = g.toNat := by
  have := g.isLt
  rw [BitVec.toNat_setWidth]; omega

/-! ### The clamp -/

theorem clampSetter_toInt (x : Value) : (clampSetter x).toInt = max 1 (min 127 x.toInt) := by
  unfold clampSetter
  simp only [BitVec.slt_eq_decide, decide_eq_true_eq]
  have h1 : (1 : Value).toInt = 1 := rfl
  have h127 : (127 : Value).toInt = 127 := rfl
  rw [h1, h127]
  split
  · rw [h1]; omega
  · split
    · rw [h127]; omega
    · omega

end Sys2Proof.Machine
end

