-- ==== Sys2Proof/Laws/Packet.lean ====
section
/-! SUPPORT. What the arrival of a whole packet does, in any state (rules R126, R157, R170). -/

namespace Sys2Proof.Machine

/-- Bytes with bit 7 set that do not complete the packet are stored one after another. -/
theorem feedAll_store {bytes : List Byte} {s : State} (hb : ∀ b ∈ bytes, framingBit b = true)
    (h2 : 2 ≤ s.count.toNat) (hl : s.count.toNat + bytes.length < s.dlen.toNat) :
    ∃ (m : Memory) (c : BitVec 4),
      feedAll bytes s = .next { s with
        count := c, buf := m, events := s.events ++ List.replicate bytes.length .none } ∧
      c.toNat = s.count.toNat + bytes.length ∧
      ∀ i, m.get? i = if s.count.toNat ≤ i ∧ i < s.count.toNat + bytes.length
        then bytes[i - s.count.toNat]? else s.buf.get? i := by
  induction bytes generalizing s with
  | nil => exact ⟨s.buf, s.count, by simp [feedAll], by simp, fun i => by rw [if_neg (by simp)]⟩
  | cons b bytes ih =>
    have hd7 := s.dlen.isLt
    rw [List.length_cons] at hl
    have hc : s.count.toNat < 8 := by omega
    have h1 : s.count ≠ 1 := by rintro h; rw [h] at h2; exact absurd h2 (by decide)
    have e := feedOp_store (hb b List.mem_cons_self) hc h1 (by omega)
    have hcount : ((s.append b).raise .none).count.toNat = s.count.toNat + 1 := by
      rw [State.raise_count, State.append_count, count_add_one_toNat hc]
    obtain ⟨m, c, hf, hcc, hm⟩ := ih (s := (s.append b).raise .none)
      (fun x hx => hb x (List.mem_cons_of_mem b hx)) (by omega)
      (by rw [hcount, State.raise_dlen, State.append_dlen]; omega)
    refine ⟨m, c, ?_, ?_, ?_⟩
    · rw [feedAll_cons_next e, hf]
      simp [State.append, State.raise, List.replicate_succ]
    · rw [hcc, hcount, List.length_cons]; omega
    · intro i
      rw [hm, hcount, State.raise_buf, State.append_buf, Memory.get?_set, List.length_cons]
      by_cases hi : s.count.toNat = i
      · subst hi
        rw [if_neg (by omega), if_pos rfl, if_pos (by omega), Nat.sub_self, List.getElem?_cons_zero]
      · rw [if_neg hi]
        by_cases hr : s.count.toNat + 1 ≤ i ∧ i < s.count.toNat + 1 + bytes.length
        · rw [if_pos hr, if_pos (by omega), show i - s.count.toNat = (i - (s.count.toNat + 1)) + 1 by omega,
            List.getElem?_cons_succ]
        · rw [if_neg hr, if_neg (by omega)]

/-- A byte list read back from BUF. -/
theorem bufBytes_eq_of_get? {s : State} {i : Nat} {bytes : List Byte}
    (h : ∀ j < bytes.length, s.buf.get? (i + j) = bytes[j]?) : s.bufBytes i bytes.length = bytes := by
  apply List.ext_getElem
  · simp [State.bufBytes]
  · intro j h1 h2
    have hj := h j h2
    rw [List.getElem?_eq_getElem h2] at hj
    simp [State.bufBytes, State.bufByte_of_get? hj]

/-- The bytes of a packet before its checksum byte (R60). -/
def packetBody (fc : Fc) (axis : Axis) (data : List Group) : List Byte :=
  addressByte axis :: controlByte (lengthCodeOf data.length) fc :: data.map dataByte

theorem packetBytes_eq (fc : Fc) (axis : Axis) (data : List Group) (check : BitVec 7) :
    packetBytes fc axis data check = packetBody fc axis data ++ [dataByte check] := by
  simp [packetBytes, packetBody]

/-- DECODE of a packet that BUF holds (R170). -/
theorem decodeOp_packet {s : State} {fc : Fc} {axis : Axis} {g : Group} {rest : List Group}
    {check : BitVec 7}
    (h : ∀ i < rest.length + 4, s.buf.get? i = (packetBytes fc axis (g :: rest) check)[i]?) :
    decodeOp (rest.length + 4) s =
      if low7 (sum8 (packetBody fc axis (g :: rest))) = check then
        (s.record axis fc (decodeValue fc g rest), reportOf axis fc (decodeValue fc g rest))
      else (s.recordFailure, .csfail) := by
  have hbody : s.bufBytes 0 (rest.length + 3) = packetBody fc axis (g :: rest) := by
    have hlen : (packetBody fc axis (g :: rest)).length = rest.length + 3 := by simp [packetBody]
    rw [← hlen]
    apply bufBytes_eq_of_get?
    intro j hj
    rw [Nat.zero_add, h j (by omega), packetBytes_eq, List.getElem?_append_left hj]
  have hcheck : s.bufByte (rest.length + 3) = dataByte check := by
    apply State.bufByte_of_get?
    rw [h _ (by omega), packetBytes_eq, List.getElem?_append_right (by simp [packetBody])]
    simp [packetBody]
  have h0 : s.bufByte 0 = addressByte axis := by
    apply State.bufByte_of_get?; rw [h 0 (by omega)]; rfl
  have h1 : s.bufByte 1 = controlByte (lengthCodeOf (g :: rest).length) fc := by
    apply State.bufByte_of_get?; rw [h 1 (by omega)]; rfl
  have h2 : s.bufByte 2 = dataByte g := by
    apply State.bufByte_of_get?; rw [h 2 (by omega)]; rfl
  have h3 : s.bufBytes 3 rest.length = rest.map dataByte := by
    rw [← List.length_map (f := dataByte)]
    apply bufBytes_eq_of_get?
    intro j hj
    rw [List.length_map] at hj
    rw [h (3 + j) (by omega)]
    simp only [packetBytes, List.map_cons, List.cons_append]
    rw [show 3 + j = j + 1 + 1 + 1 by omega, List.getElem?_cons_succ, List.getElem?_cons_succ,
      List.getElem?_cons_succ, List.getElem?_append_left (by simpa using hj)]
  unfold decodeOp
  rw [show rest.length + 4 - 1 = rest.length + 3 by omega, show rest.length + 4 - 4 = rest.length by omega,
    hbody, hcheck, h0, h1, h2, h3]
  simp only [chkVerify, low7_dataByte, low7_addressByte, controlFc_controlByte, List.map_map, decide_eq_true_eq]
  rw [show (low7 ∘ dataByte) = id from funext low7_dataByte, List.map_id]

/-- The arrival of a packet, in any state: the state just before DECODE, then DECODE. -/
theorem feedAll_packet (fc : Fc) (axis : Axis) {data : List Group} (check : BitVec 7) (s : State)
    (hg : groupsOk data = true) :
    ∃ (m : Memory) (c : BitVec 4) (d : BitVec 3),
      c.toNat = data.length + 3 ∧ d.toNat = data.length + 3 ∧
      (∀ i, m.get? i = if i < data.length + 3 then (packetBytes fc axis data check)[i]?
        else s.buf.get? i) ∧
      feedAll (packetBytes fc axis data check) s =
        decodeCall (data.length + 3) { s with
          count := c, dlen := d, buf := m
          events := s.events ++ List.replicate (data.length + 2) .none } := by
  rw [groupsOk_iff] at hg
  have hlc := lengthCodeOf_toNat hg.1 hg.2
  let s1 := (s.restart.append (addressByte axis)).raise .none
  have e1 : feedOp (addressByte axis) s = .next s1 := feedOp_address (by simp) s
  let cb := controlByte (lengthCodeOf data.length) fc
  let s2 := ((s1.append cb).declare (4 + (controlLc cb).setWidth 3)).raise .none
  have e2 : feedOp cb s1 = .next s2 := feedOp_control (by simp [cb]) (by simp [s1])
  have hs2c : s2.count = 2 := by simp [s2, s1]
  have hs2d : s2.dlen.toNat = data.length + 3 := by
    simp only [s2, State.raise_dlen, State.declare_dlen, cb, controlLc_controlByte]
    rw [show ∀ lc : LengthCode, (4 + lc.setWidth 3 : BitVec 3).toNat = 4 + lc.toNat by decide, hlc]
    omega
  have hs2m : ∀ i, s2.buf.get? i = if i = 1 then some cb else if i = 0 then some (addressByte axis)
      else s.buf.get? i := by
    intro i
    simp only [s2, s1, State.raise_buf, State.declare_buf, State.append_buf, State.restart_buf,
      State.raise_count, State.append_count, State.restart_count, Memory.get?_set]
    rw [show ((0 : BitVec 4) + 1).toNat = 1 from rfl, show (0 : BitVec 4).toNat = 0 from rfl]
    simp only [eq_comm]
  obtain ⟨m, c, hf, hc, hm⟩ := feedAll_store (s := s2) (bytes := data.map dataByte)
    (by simp) (by rw [hs2c]; decide) (by rw [hs2c, hs2d, List.length_map]; simp; omega)
  rw [List.length_map, hs2c, show (2 : BitVec 4).toNat = 2 from rfl] at hc hm
  rw [List.length_map] at hf
  let s3 : State := { s2 with count := c, buf := m, events := s2.events ++ List.replicate data.length .none }
  have hs3d : s3.dlen.toNat = data.length + 3 := hs2d
  have hs3c : s3.count.toNat = data.length + 2 := by show c.toNat = _; omega
  have e3 : feedOp (dataByte check) s3 = decodeCall s3.dlen.toNat (s3.append (dataByte check)) :=
    feedOp_complete (by simp) (by omega) (by intro h; rw [h] at hs3c; simp at hs3c) (by omega)
  refine ⟨m.set (data.length + 2) (dataByte check), c + 1, s2.dlen, ?_, hs2d, ?_, ?_⟩
  · rw [count_add_one_toNat (by omega), hc]; omega
  · intro i
    rw [Memory.get?_set, hm]
    simp only [packetBytes]
    by_cases hi : data.length + 2 = i
    · subst hi
      rw [if_pos rfl, if_pos (by omega), List.getElem?_cons_succ, List.getElem?_cons_succ,
        List.getElem?_append_right (by simp)]
      simp
    · rw [if_neg hi]
      by_cases h1 : 2 ≤ i ∧ i < 2 + data.length
      · rw [if_pos h1, if_pos (by omega)]
        obtain ⟨j, rfl⟩ : ∃ j, i = j + 2 := ⟨i - 2, by omega⟩
        rw [List.getElem?_cons_succ, List.getElem?_cons_succ, List.getElem?_append_left (by simp; omega)]
        simp
      · rw [if_neg h1, hs2m]
        by_cases h0 : i < data.length + 3
        · rw [if_pos h0]
          have : i = 0 ∨ i = 1 := by omega
          rcases this with rfl | rfl <;> simp [cb]
        · rw [if_neg h0, if_neg (by omega), if_neg (by omega)]
  · show feedAll (addressByte axis :: cb :: (data.map dataByte ++ [dataByte check])) s = _
    rw [feedAll_cons_next e1, feedAll_cons_next e2, feedAll_append_next hf]
    show feedAll [dataByte check] s3 = _
    have hcall : decodeCall s3.dlen.toNat (s3.append (dataByte check)) =
        decodeCall (data.length + 3) { s with
          count := c + 1, dlen := s2.dlen, buf := m.set (data.length + 2) (dataByte check)
          events := s.events ++ List.replicate (data.length + 2) .none } := by
      rw [hs3d]
      congr 1
      simp only [State.append, hs3c]
      simp [s3, s2, s1, State.append, State.raise, State.declare, State.restart, List.replicate_succ]
    have h4 : 4 ≤ data.length + 3 := by omega
    have hn := decodeCall_next (len := data.length + 3) (s := { s with
          count := c + 1, dlen := s2.dlen, buf := m.set (data.length + 2) (dataByte check)
          events := s.events ++ List.replicate (data.length + 2) .none })
      (by show (c + 1).toNat = _; rw [count_add_one_toNat (by omega), hc]; omega) hs2d h4
    rw [hcall, hn] at e3
    rw [feedAll_cons_next e3, hn]
    rfl

end Sys2Proof.Machine
end

