-- ==== Sys2Proof/Laws/Exec.lean ====
section
/-! SUPPORT. Everything an instruction can do, said once (rule R9), and what the decoder can read from a
move of the host (rules R60, R70). -/

namespace Sys2Proof.Machine

/-- A function-code row has the two forms of `packetOp`. -/
theorem packetOp_cases {α : Type} {fc : Fc} {toArg : α → Value} {form : PktForm α} {s t : State}
    (h : packetOp fc toArg form s = .next t) :
    (∃ bytes, bytes ≠ [] ∧ t = s.transmit bytes) ∨
    (∃ axis data check, groupsOk data = true ∧ receiveOp fc axis data check s = .next t) := by
  cases form with
  | send axis operand =>
    simp only [packetOp, Host.Outcome.next.injEq] at h
    exact .inl ⟨_, by simp [encodePacket], h.symm⟩
  | recv axis data check =>
    have h' : receiveOp fc axis data check s = .next t := h
    by_cases hg : groupsOk data = true
    · exact .inr ⟨axis, data, check, hg, h'⟩
    · rw [receiveOp, if_neg hg] at h'
      simp at h'

/-- The five things an instruction can do when it has a next state. -/
theorem exec_cases {i : Instr} {s t : State} (h : exec i s = .next t) :
    (i = .reset ∧ t = resetOp s) ∨
    (∃ b, feedOp b s = .next t) ∨
    (∃ fc axis data check, groupsOk data = true ∧ receiveOp fc axis data check s = .next t) ∨
    (∃ bytes, bytes ≠ [] ∧ t = s.transmit bytes) ∨
    (∃ out, t = s.emitUnit out) ∨
    (4 ≤ s.dlen.toNat ∧ s.count.toNat = s.dlen.toNat ∧
      t = (decodeOp s.dlen.toNat s).1.raise (decodeOp s.dlen.toNat s).2) := by
  cases i
  case reset =>
    simp only [exec, execReset, Host.Outcome.next.injEq] at h
    exact .inl ⟨rfl, h.symm⟩
  case feed b => exact .inr (.inl ⟨b, h⟩)
  case encode fc axis arg =>
    simp only [exec, execEncode, Host.Outcome.next.injEq] at h
    exact .inr (.inr (.inr (.inl ⟨_, by simp [encodePacket], h.symm⟩)))
  case decode len =>
    simp only [exec, execDecode, decodeCall] at h
    split at h
    · rename_i hc
      obtain ⟨h1, h2, h3⟩ := hc
      rw [lengthOk_iff] at h3
      subst h2
      simp only [Host.Outcome.next.injEq] at h
      exact .inr (.inr (.inr (.inr (.inr ⟨h3.1, h1, h.symm⟩))))
    · simp at h
  case vliUnpackS g =>
    simp only [exec, execVliUnpackS] at h
    split at h
    · split at h
      · simp only [Host.Outcome.next.injEq] at h
        exact .inr (.inr (.inr (.inr (.inl ⟨_, h.symm⟩))))
      · simp at h
    · simp at h
  case vliUnpackU g =>
    simp only [exec, execVliUnpackU] at h
    split at h
    · split at h
      · simp only [Host.Outcome.next.injEq] at h
        exact .inr (.inr (.inr (.inr (.inl ⟨_, h.symm⟩))))
      · simp at h
    · simp at h
  case chkGen p =>
    simp only [exec, execChkGen, Host.Outcome.next.injEq] at h
    exact .inr (.inr (.inr (.inr (.inl ⟨_, h.symm⟩))))
  case chkVerify p c =>
    simp only [exec, execChkVerify, Host.Outcome.next.injEq] at h
    exact .inr (.inr (.inr (.inr (.inl ⟨_, h.symm⟩))))
  case vliPack a =>
    simp only [exec, execVliPack, Host.Outcome.next.injEq] at h
    exact .inr (.inr (.inr (.inr (.inl ⟨_, h.symm⟩))))
  case clamp x =>
    simp only [exec, execClamp, Host.Outcome.next.injEq] at h
    exact .inr (.inr (.inr (.inr (.inl ⟨_, h.symm⟩))))
  all_goals
    rcases packetOp_cases h with hs | ⟨axis, data, check, hg, hr⟩
    · exact .inr (.inr (.inr (.inl hs)))
    · exact .inr (.inr (.inl ⟨_, axis, data, check, hg, hr⟩))

/-- A received packet, whichever row its function code is, does what `receiveOp` does. -/
theorem exec_received (fc : Fc) (axis : Axis) (data : List Group) (check : BitVec 7) (s : State) :
    exec (.received fc axis data check) s = receiveOp fc axis data check s := by
  obtain ⟨n, hn⟩ := fc
  interval_cases n <;> rfl

/-- A command, whichever row its function code is, is an ENCODE of some argument. -/
theorem exec_commanded (fc : Fc) (axis : Axis) (operand : Value) (s : State) :
    ∃ arg, exec (.commanded fc axis operand) s = .next (encodeOp fc (axis.setWidth 8) arg s) := by
  obtain ⟨n, hn⟩ := fc
  interval_cases n <;> exact ⟨_, rfl⟩

/-! ### What the decoder reads -/

/-- A run of bytes starts with a packet or with a FEED. -/
theorem decodeRx_cases {bytes : List Byte} {i : Instr} {rest : Option Request}
    (h : decodeRx bytes = .run i rest) :
    (∃ fc axis data check left, groupsOk data = true ∧ i = .received fc axis data check ∧
      bytes = packetBytes fc axis data check ++ left ∧ rest = restRx left) ∨
    (∃ b left, i = .feed b ∧ bytes = b :: left ∧ rest = restRx left) := by
  match bytes with
  | [] => simp [decodeRx] at h
  | [b] =>
    simp only [decodeRx, Decoded.run.injEq] at h
    exact .inr ⟨b, [], h.1.symm, rfl, h.2.symm⟩
  | a :: c :: more =>
    simp only [decodeRx] at h
    split at h
    · rename_i hf
      cases hs : splitBody (groupCountOf (controlLc c)) more with
      | none =>
        simp only [hs, Decoded.run.injEq] at h
        exact .inr ⟨a, c :: more, h.1.symm, rfl, h.2.symm⟩
      | some v =>
        obtain ⟨data, check, left⟩ := v
        simp only [hs, Decoded.run.injEq] at h
        obtain ⟨hl, hb⟩ := splitBody_some hs
        refine .inl ⟨_, _, data, check, left, ?_, h.1.symm, ?_, h.2.symm⟩
        · rw [groupsOk_iff, hl]
          exact ⟨by simp [groupCountOf], groupCountOf_le _⟩
        · rw [hb, packetBytes, hl, lengthCodeOf_groupCountOf, addressByte_low7 hf.1,
            controlByte_fields hf.2]
          simp
    · simp only [Decoded.run.injEq] at h
      exact .inr ⟨a, c :: more, h.1.symm, rfl, h.2.symm⟩

/-- What a move of the host starts with. -/
theorem decode_cases {r : Request} {i : Instr} {rest : Option Request} (h : decode r = .run i rest) :
    i = .reset ∨ (∃ b, i = .feed b) ∨ (∃ fc axis arg, i = .encode fc axis arg) ∨
    (∃ fc axis operand, i = .commanded fc axis operand) ∨
    (∃ fc axis data check, groupsOk data = true ∧ i = .received fc axis data check) := by
  cases r with
  | ports p =>
    simp only [decode, decodePorts] at h
    split at h
    · simp only [Decoded.run.injEq] at h; exact .inl h.1.symm
    · split at h
      · simp only [Decoded.run.injEq] at h; exact .inr (.inl ⟨_, h.1.symm⟩)
      · split at h
        · simp only [Decoded.run.injEq] at h; exact .inr (.inr (.inl ⟨_, _, _, h.1.symm⟩))
        · simp at h
  | rx bytes =>
    rcases decodeRx_cases h with ⟨fc, axis, data, check, left, hg, hi, -, -⟩ | ⟨b, left, hi, -, -⟩
    · exact .inr (.inr (.inr (.inr ⟨fc, axis, data, check, hg, hi⟩)))
    · exact .inr (.inl ⟨b, hi⟩)
  | command fc axis operand =>
    simp only [decode, decodeCommand] at h
    split at h
    · simp only [Decoded.run.injEq] at h; exact .inr (.inr (.inr (.inl ⟨fc, axis, operand, h.1.symm⟩)))
    · simp at h

end Sys2Proof.Machine
end

