-- ==== Sys2Proof/Laws/PerInstr.lean ====
section
/-! SUPPORT. A family over all instructions: what `encode` writes for an instruction matches the row of
`opcode_table.json` that the instruction stands for (rule R70). -/

namespace Sys2Proof.Laws.TableRow

open Sys2Proof

/-- The pulses as the three-bit vector of R70, `rst` the most significant. -/
def pulses (p : Ports) : BitVec 3 :=
  BitVec.ofBool p.rst ++ BitVec.ofBool p.cmd.isSome ++ BitVec.ofBool p.rx.isSome

/-- The move starts with a header, or is a command, of the row with this `match` (mask 0x809F). -/
def ofHeader (pattern : BitVec 16) : Option Request → Prop
  | some (.rx (a :: c :: _)) => (a ++ c : BitVec 16) &&& 0x809F = pattern
  | some (.command fc _ _) => 0x0080 ||| fc.setWidth 16 = pattern
  | _ => False

/-- The move is a set of pulses of the row with this `mask` and `match`. -/
def ofPulses (mask pattern : BitVec 3) : Option Request → Prop
  | some (.ports p) => pulses p &&& mask = pattern
  | _ => False

/-- Each instruction's move matches its row; a row with no pattern has no move. -/
def Statement (i : Instr) : Prop :=
  match i with
  | .resetOrigin _ => ofHeader 0x0080 (encode i)
  | .moveAbs _ => ofHeader 0x0081 (encode i)
  | .fc02 _ => ofHeader 0x0082 (encode i)
  | .fc03 _ => ofHeader 0x0083 (encode i)
  | .fc04 _ => ofHeader 0x0084 (encode i)
  | .fc05 _ => ofHeader 0x0085 (encode i)
  | .fc06 _ => ofHeader 0x0086 (encode i)
  | .setConfig _ => ofHeader 0x0087 (encode i)
  | .fc08 _ => ofHeader 0x0088 (encode i)
  | .fc09 _ => ofHeader 0x0089 (encode i)
  | .rotate _ => ofHeader 0x008A (encode i)
  | .fc0B _ => ofHeader 0x008B (encode i)
  | .fc0C _ => ofHeader 0x008C (encode i)
  | .fc0D _ => ofHeader 0x008D (encode i)
  | .paramRead _ => ofHeader 0x008E (encode i)
  | .fc0F _ => ofHeader 0x008F (encode i)
  | .setMainGain _ => ofHeader 0x0090 (encode i)
  | .setSpeedGain _ => ofHeader 0x0091 (encode i)
  | .setIntGain _ => ofHeader 0x0092 (encode i)
  | .fc13 _ => ofHeader 0x0093 (encode i)
  | .setMaxSpeed _ => ofHeader 0x0094 (encode i)
  | .setMaxAccel _ => ofHeader 0x0095 (encode i)
  | .fc16 _ => ofHeader 0x0096 (encode i)
  | .fc17 _ => ofHeader 0x0097 (encode i)
  | .fc18 _ => ofHeader 0x0098 (encode i)
  | .fc19 _ => ofHeader 0x0099 (encode i)
  | .fc1A _ => ofHeader 0x009A (encode i)
  | .absPosReport _ => ofHeader 0x009B (encode i)
  | .fc1C _ => ofHeader 0x009C (encode i)
  | .fc1D _ => ofHeader 0x009D (encode i)
  | .fc1E _ => ofHeader 0x009E (encode i)
  | .fc1F _ => ofHeader 0x009F (encode i)
  | .reset => ofPulses 0x4 0x4 (encode i)
  | .feed _ => ofPulses 0x5 0x1 (encode i)
  | .encode _ _ _ => ofPulses 0x6 0x2 (encode i)
  | .decode _ => encode i = none
  | .chkGen _ => encode i = none
  | .chkVerify _ _ => encode i = none
  | .vliPack _ => encode i = none
  | .vliUnpackS _ => encode i = none
  | .vliUnpackU _ => encode i = none
  | .clamp _ => encode i = none

theorem header_of_packet (fc : Fc) (axis : Axis) (lc : LengthCode) :
    (addressByte axis ++ controlByte lc fc : BitVec 16) &&& 0x809F = 0x0080 ||| fc.setWidth 16 := by
  have h1 : ∀ a : Axis, addressByte a &&& 0x80 = 0x00 := by decide
  have h2 : ∀ (l : LengthCode) (f : Fc), controlByte l f &&& 0x9F = 0x80 ||| f.setWidth 8 := by decide
  rw [show (0x809F : BitVec 16) = (0x80 : Byte) ++ (0x9F : Byte) from rfl, BitVec.and_append, h1, h2]
  revert fc; decide

theorem ofHeader_form {α : Type} (fc : Fc) (toWord : α → Value) (form : PktForm α) :
    ofHeader (0x0080 ||| fc.setWidth 16) (some (encodeForm fc toWord form)) := by
  cases form with
  | send axis operand => rfl
  | recv axis data check => exact header_of_packet fc axis _

theorem resetOrigin (form : PktForm Unit) : Statement (.resetOrigin form) := ofHeader_form 0x00 _ form
theorem moveAbs (form : PktForm Value) : Statement (.moveAbs form) := ofHeader_form 0x01 _ form
theorem fc02 (form : PktForm Value) : Statement (.fc02 form) := ofHeader_form 0x02 _ form
theorem fc03 (form : PktForm Value) : Statement (.fc03 form) := ofHeader_form 0x03 _ form
theorem fc04 (form : PktForm Value) : Statement (.fc04 form) := ofHeader_form 0x04 _ form
theorem fc05 (form : PktForm Value) : Statement (.fc05 form) := ofHeader_form 0x05 _ form
theorem fc06 (form : PktForm Value) : Statement (.fc06 form) := ofHeader_form 0x06 _ form
theorem setConfig (form : PktForm Byte) : Statement (.setConfig form) := ofHeader_form 0x07 _ form
theorem fc08 (form : PktForm Value) : Statement (.fc08 form) := ofHeader_form 0x08 _ form
theorem fc09 (form : PktForm Value) : Statement (.fc09 form) := ofHeader_form 0x09 _ form
theorem rotate (form : PktForm Value) : Statement (.rotate form) := ofHeader_form 0x0a _ form
theorem fc0B (form : PktForm Value) : Statement (.fc0B form) := ofHeader_form 0x0b _ form
theorem fc0C (form : PktForm Value) : Statement (.fc0C form) := ofHeader_form 0x0c _ form
theorem fc0D (form : PktForm Value) : Statement (.fc0D form) := ofHeader_form 0x0d _ form
theorem paramRead (form : PktForm Byte) : Statement (.paramRead form) := ofHeader_form 0x0e _ form
theorem fc0F (form : PktForm Value) : Statement (.fc0F form) := ofHeader_form 0x0f _ form
theorem setMainGain (form : PktForm Value) : Statement (.setMainGain form) := ofHeader_form 0x10 _ form
theorem setSpeedGain (form : PktForm Value) : Statement (.setSpeedGain form) := ofHeader_form 0x11 _ form
theorem setIntGain (form : PktForm Value) : Statement (.setIntGain form) := ofHeader_form 0x12 _ form
theorem fc13 (form : PktForm Value) : Statement (.fc13 form) := ofHeader_form 0x13 _ form
theorem setMaxSpeed (form : PktForm Value) : Statement (.setMaxSpeed form) := ofHeader_form 0x14 _ form
theorem setMaxAccel (form : PktForm Value) : Statement (.setMaxAccel form) := ofHeader_form 0x15 _ form
theorem fc16 (form : PktForm Value) : Statement (.fc16 form) := ofHeader_form 0x16 _ form
theorem fc17 (form : PktForm Value) : Statement (.fc17 form) := ofHeader_form 0x17 _ form
theorem fc18 (form : PktForm Value) : Statement (.fc18 form) := ofHeader_form 0x18 _ form
theorem fc19 (form : PktForm Value) : Statement (.fc19 form) := ofHeader_form 0x19 _ form
theorem fc1A (form : PktForm Value) : Statement (.fc1A form) := ofHeader_form 0x1a _ form
theorem absPosReport (form : PktForm Value) : Statement (.absPosReport form) := ofHeader_form 0x1b _ form
theorem fc1C (form : PktForm Value) : Statement (.fc1C form) := ofHeader_form 0x1c _ form
theorem fc1D (form : PktForm Value) : Statement (.fc1D form) := ofHeader_form 0x1d _ form
theorem fc1E (form : PktForm Value) : Statement (.fc1E form) := ofHeader_form 0x1e _ form
theorem fc1F (form : PktForm Value) : Statement (.fc1F form) := ofHeader_form 0x1f _ form
theorem reset : Statement .reset := rfl
theorem feed (b : Byte) : Statement (.feed b) := by
  show BitVec.ofBool false ++ BitVec.ofBool false ++ BitVec.ofBool true &&& 0x5 = (0x1 : BitVec 3)
  decide
theorem encode (fc : Fc) (axis : Byte) (arg : Value) : Statement (.encode fc axis arg) := by
  show BitVec.ofBool false ++ BitVec.ofBool true ++ BitVec.ofBool false &&& 0x6 = (0x2 : BitVec 3)
  decide
theorem decode (len : Nat) : Statement (.decode len) := rfl
theorem chkGen (p : List Byte) : Statement (.chkGen p) := rfl
theorem chkVerify (p : List Byte) (c : Byte) : Statement (.chkVerify p c) := rfl
theorem vliPack (a : ArgField) : Statement (.vliPack a) := rfl
theorem vliUnpackS (g : List Group) : Statement (.vliUnpackS g) := rfl
theorem vliUnpackU (g : List Group) : Statement (.vliUnpackU g) := rfl
theorem clamp (x : Value) : Statement (.clamp x) := rfl

end Sys2Proof.Laws.TableRow
end

