-- ==== Sys2Proof/Tests/Slice0.lean ====
section
/-! SUPPORT. The model's own tests. Expected values are those of `spec/95_test_vectors.md` (the vector is
named), or are worked from the rules by hand where it has none. Then one witness for each statement
that has hypotheses. -/

namespace Sys2Proof.Tests

open Sys2Proof Sys2Proof.Machine Sys2Proof.Ref

/-- One field of the next state. -/
def field {α : Type} (f : State → α) : Result → Option α
  | .next t => some (f t)
  | .fault _ => none
  | .refused _ => none

/-- A state with the packet in progress given, otherwise as after reset. -/
def holding (count : BitVec 4) (dlen : BitVec 3) (bytes : List Byte) : State :=
  { State.reset with count := count, dlen := dlen, buf := (List.range bytes.length).zip bytes }

/-! ### WellFormed refuses, for each check, a term that breaks it -/

/-- A received packet with no group and one with five, for every function code. -/
theorem test_ill_formed_packets :
    ∀ row ∈ (0x1B, fun a d c => Instr.absPosReport (.recv a d c)) :: namedReceived ++ unnamedReceived,
      (row.2 0 [] 0).wellFormed = false ∧ (row.2 0 [0, 0, 0, 0, 0] 0).wellFormed = false := by decide

theorem test_ill_formed_unpack_signed :
    (Instr.vliUnpackS []).wellFormed = false ∧ (Instr.vliUnpackS [0, 0, 0, 0, 0]).wellFormed = false := by
  decide

theorem test_ill_formed_unpack_unsigned :
    (Instr.vliUnpackU []).wellFormed = false ∧ (Instr.vliUnpackU [0, 0, 0, 0, 0]).wellFormed = false := by
  decide

theorem test_ill_formed_decode_length :
    (Instr.decode 3).wellFormed = false ∧ (Instr.decode 8).wellFormed = false := by decide

/-! ### Decoding: a word written out from R60 to R66 and R70 for every constructor -/

/-- Packets with function codes 0x00 to 0x07: address, control, groups, checksum. -/
theorem test_decode_packets_0 :
    decode (.rx [0x05, 0x80, 0x83, 0x88]) =
      .run (.resetOrigin (.recv 0x05 [0x03] 0x08)) none ∧
    decode (.rx [0x2A, 0xA1, 0x8E, 0xAB, 0x84]) =
      .run (.moveAbs (.recv 0x2a [0x0E, 0x2B] 0x04)) none ∧
    decode (.rx [0x4F, 0xC2, 0x99, 0xB6, 0xD3, 0xB3]) =
      .run (.fc02 (.recv 0x4f [0x19, 0x36, 0x53] 0x33)) none ∧
    decode (.rx [0x74, 0xE3, 0xA4, 0xC1, 0xDE, 0xFB, 0x95]) =
      .run (.fc03 (.recv 0x74 [0x24, 0x41, 0x5E, 0x7B] 0x15)) none ∧
    decode (.rx [0x19, 0x84, 0xAF, 0xCC]) =
      .run (.fc04 (.recv 0x19 [0x2F] 0x4C)) none ∧
    decode (.rx [0x3E, 0xA5, 0xBA, 0xD7, 0xF4]) =
      .run (.fc05 (.recv 0x3e [0x3A, 0x57] 0x74)) none ∧
    decode (.rx [0x63, 0xC6, 0xC5, 0xE2, 0xFF, 0xCF]) =
      .run (.fc06 (.recv 0x63 [0x45, 0x62, 0x7F] 0x4F)) none ∧
    decode (.rx [0x08, 0xE7, 0xD0, 0xED, 0x8A, 0xA7, 0xDD]) =
      .run (.setConfig (.recv 0x08 [0x50, 0x6D, 0x0A, 0x27] 0x5D)) none := by decide

/-- Packets with function codes 0x08 to 0x0f: address, control, groups, checksum. -/
theorem test_decode_packets_1 :
    decode (.rx [0x2D, 0x88, 0xDB, 0x90]) =
      .run (.fc08 (.recv 0x2d [0x5B] 0x10)) none ∧
    decode (.rx [0x52, 0xA9, 0xE6, 0x83, 0xE4]) =
      .run (.fc09 (.recv 0x52 [0x66, 0x03] 0x64)) none ∧
    decode (.rx [0x77, 0xCA, 0xF1, 0x8E, 0xAB, 0xEB]) =
      .run (.rotate (.recv 0x77 [0x71, 0x0E, 0x2B] 0x6B)) none ∧
    decode (.rx [0x1C, 0xEB, 0xFC, 0x99, 0xB6, 0xD3, 0xA5]) =
      .run (.fc0B (.recv 0x1c [0x7C, 0x19, 0x36, 0x53] 0x25)) none ∧
    decode (.rx [0x41, 0x8C, 0x87, 0xD4]) =
      .run (.fc0C (.recv 0x41 [0x07] 0x54)) none ∧
    decode (.rx [0x66, 0xAD, 0x92, 0xAF, 0xD4]) =
      .run (.fc0D (.recv 0x66 [0x12, 0x2F] 0x54)) none ∧
    decode (.rx [0x0B, 0xCE, 0x9D, 0xBA, 0xD7, 0x87]) =
      .run (.paramRead (.recv 0x0b [0x1D, 0x3A, 0x57] 0x07)) none ∧
    decode (.rx [0x30, 0xEF, 0xA8, 0xC5, 0xE2, 0xFF, 0xED]) =
      .run (.fc0F (.recv 0x30 [0x28, 0x45, 0x62, 0x7F] 0x6D)) none := by decide

/-- Packets with function codes 0x10 to 0x17: address, control, groups, checksum. -/
theorem test_decode_packets_2 :
    decode (.rx [0x55, 0x90, 0xB3, 0x98]) =
      .run (.setMainGain (.recv 0x55 [0x33] 0x18)) none ∧
    decode (.rx [0x7A, 0xB1, 0xBE, 0xDB, 0xC4]) =
      .run (.setSpeedGain (.recv 0x7a [0x3E, 0x5B] 0x44)) none ∧
    decode (.rx [0x1F, 0xD2, 0xC9, 0xE6, 0x83, 0xA3]) =
      .run (.setIntGain (.recv 0x1f [0x49, 0x66, 0x03] 0x23)) none ∧
    decode (.rx [0x44, 0xF3, 0xD4, 0xF1, 0x8E, 0xAB, 0xB5]) =
      .run (.fc13 (.recv 0x44 [0x54, 0x71, 0x0E, 0x2B] 0x35)) none ∧
    decode (.rx [0x69, 0x94, 0xDF, 0xDC]) =
      .run (.setMaxSpeed (.recv 0x69 [0x5F] 0x5C)) none ∧
    decode (.rx [0x0E, 0xB5, 0xEA, 0x87, 0xB4]) =
      .run (.setMaxAccel (.recv 0x0e [0x6A, 0x07] 0x34)) none ∧
    decode (.rx [0x33, 0xD6, 0xF5, 0x92, 0xAF, 0xBF]) =
      .run (.fc16 (.recv 0x33 [0x75, 0x12, 0x2F] 0x3F)) none ∧
    decode (.rx [0x58, 0xF7, 0x80, 0x9D, 0xBA, 0xD7, 0xFD]) =
      .run (.fc17 (.recv 0x58 [0x00, 0x1D, 0x3A, 0x57] 0x7D)) none := by decide

/-- Packets with function codes 0x18 to 0x1f: address, control, groups, checksum. -/
theorem test_decode_packets_3 :
    decode (.rx [0x7D, 0x98, 0x8B, 0xA0]) =
      .run (.fc18 (.recv 0x7d [0x0B] 0x20)) none ∧
    decode (.rx [0x22, 0xB9, 0x96, 0xB3, 0xA4]) =
      .run (.fc19 (.recv 0x22 [0x16, 0x33] 0x24)) none ∧
    decode (.rx [0x47, 0xDA, 0xA1, 0xBE, 0xDB, 0xDB]) =
      .run (.fc1A (.recv 0x47 [0x21, 0x3E, 0x5B] 0x5B)) none ∧
    decode (.rx [0x00, 0xFB, 0xAC, 0xC9, 0xE6, 0x83, 0xD9]) =
      .run (.absPosReport (.recv 0x00 [0x2C, 0x49, 0x66, 0x03] 0x59)) none ∧
    decode (.rx [0x11, 0x9C, 0xB7, 0xE4]) =
      .run (.fc1C (.recv 0x11 [0x37] 0x64)) none ∧
    decode (.rx [0x36, 0xBD, 0xC2, 0xDF, 0x94]) =
      .run (.fc1D (.recv 0x36 [0x42, 0x5F] 0x14)) none ∧
    decode (.rx [0x5B, 0xDE, 0xCD, 0xEA, 0x87, 0xF7]) =
      .run (.fc1E (.recv 0x5b [0x4D, 0x6A, 0x07] 0x77)) none ∧
    decode (.rx [0x00, 0xFF, 0xD8, 0xF5, 0x92, 0xAF, 0x8D]) =
      .run (.fc1F (.recv 0x00 [0x58, 0x75, 0x12, 0x2F] 0x0D)) none := by decide

/-- Commands with function codes 0x00 to 0x07. -/
theorem test_decode_commands_0 :
    decode (.command 0x00 0x05 0) = .run (.resetOrigin (.send 0x05 ())) none ∧
    decode (.command 0x01 0x2a 0xFFFFFC18) = .run (.moveAbs (.send 0x2a 0xFFFFFC18)) none ∧
    decode (.command 0x02 0x4f 0xFFFFFC18) = .run (.fc02 (.send 0x4f 0xFFFFFC18)) none ∧
    decode (.command 0x03 0x74 0xFFFFFC18) = .run (.fc03 (.send 0x74 0xFFFFFC18)) none ∧
    decode (.command 0x04 0x19 0xFFFFFC18) = .run (.fc04 (.send 0x19 0xFFFFFC18)) none ∧
    decode (.command 0x05 0x3e 0xFFFFFC18) = .run (.fc05 (.send 0x3e 0xFFFFFC18)) none ∧
    decode (.command 0x06 0x63 0xFFFFFC18) = .run (.fc06 (.send 0x63 0xFFFFFC18)) none ∧
    decode (.command 0x07 0x08 0xF5) = .run (.setConfig (.send 0x08 0xF5)) none := by decide

/-- Commands with function codes 0x08 to 0x0f. -/
theorem test_decode_commands_1 :
    decode (.command 0x08 0x2d 0xFFFFFC18) = .run (.fc08 (.send 0x2d 0xFFFFFC18)) none ∧
    decode (.command 0x09 0x52 0xFFFFFC18) = .run (.fc09 (.send 0x52 0xFFFFFC18)) none ∧
    decode (.command 0x0A 0x77 0xFFFFFC18) = .run (.rotate (.send 0x77 0xFFFFFC18)) none ∧
    decode (.command 0x0B 0x1c 0xFFFFFC18) = .run (.fc0B (.send 0x1c 0xFFFFFC18)) none ∧
    decode (.command 0x0C 0x41 0xFFFFFC18) = .run (.fc0C (.send 0x41 0xFFFFFC18)) none ∧
    decode (.command 0x0D 0x66 0xFFFFFC18) = .run (.fc0D (.send 0x66 0xFFFFFC18)) none ∧
    decode (.command 0x0E 0x0b 0xF5) = .run (.paramRead (.send 0x0b 0xF5)) none ∧
    decode (.command 0x0F 0x30 0xFFFFFC18) = .run (.fc0F (.send 0x30 0xFFFFFC18)) none := by decide

/-- Commands with function codes 0x10 to 0x17. -/
theorem test_decode_commands_2 :
    decode (.command 0x10 0x55 0xFFFFFC18) = .run (.setMainGain (.send 0x55 0xFFFFFC18)) none ∧
    decode (.command 0x11 0x7a 0xFFFFFC18) = .run (.setSpeedGain (.send 0x7a 0xFFFFFC18)) none ∧
    decode (.command 0x12 0x1f 0xFFFFFC18) = .run (.setIntGain (.send 0x1f 0xFFFFFC18)) none ∧
    decode (.command 0x13 0x44 0xFFFFFC18) = .run (.fc13 (.send 0x44 0xFFFFFC18)) none ∧
    decode (.command 0x14 0x69 0xFFFFFC18) = .run (.setMaxSpeed (.send 0x69 0xFFFFFC18)) none ∧
    decode (.command 0x15 0x0e 0xFFFFFC18) = .run (.setMaxAccel (.send 0x0e 0xFFFFFC18)) none ∧
    decode (.command 0x16 0x33 0xFFFFFC18) = .run (.fc16 (.send 0x33 0xFFFFFC18)) none ∧
    decode (.command 0x17 0x58 0xFFFFFC18) = .run (.fc17 (.send 0x58 0xFFFFFC18)) none := by decide

/-- Commands with function codes 0x18 to 0x1f. -/
theorem test_decode_commands_3 :
    decode (.command 0x18 0x7d 0xFFFFFC18) = .run (.fc18 (.send 0x7d 0xFFFFFC18)) none ∧
    decode (.command 0x19 0x22 0xFFFFFC18) = .run (.fc19 (.send 0x22 0xFFFFFC18)) none ∧
    decode (.command 0x1A 0x47 0xFFFFFC18) = .run (.fc1A (.send 0x47 0xFFFFFC18)) none ∧
    decode (.command 0x1B 0x6c 0xFFFFFC18) = .run (.absPosReport (.send 0x6c 0xFFFFFC18)) none ∧
    decode (.command 0x1C 0x11 0xFFFFFC18) = .run (.fc1C (.send 0x11 0xFFFFFC18)) none ∧
    decode (.command 0x1D 0x36 0xFFFFFC18) = .run (.fc1D (.send 0x36 0xFFFFFC18)) none ∧
    decode (.command 0x1E 0x5b 0xFFFFFC18) = .run (.fc1E (.send 0x5b 0xFFFFFC18)) none ∧
    decode (.command 0x1F 0x00 0xFFFFFC18) = .run (.fc1F (.send 0x00 0xFFFFFC18)) none := by decide

/-- The pulse vectors of R70: 100 is RESET, 001 FEED, 010 ENCODE; 000 is nothing. -/
theorem test_decode_pulses :
    decode (.ports ⟨true, none, none⟩) = .run .reset none ∧
    decode (.ports ⟨false, none, some 0xBA⟩) = .run (.feed 0xBA) none ∧
    decode (.ports ⟨false, some ⟨0x1F, 0xFF, 0xFFFFFFFF⟩, none⟩) =
      .run (.encode 0x1F 0xFF 0xFFFFFFFF) none ∧
    decode (.ports ⟨false, none, none⟩) = .idle := by decide

/-- D3: what is left after the first of three pulses. -/
theorem test_decode_pulses_in_order :
    decode (.ports ⟨true, some ⟨1, 0, 0⟩, some 0x00⟩) =
      .run .reset (some (.ports ⟨false, some ⟨1, 0, 0⟩, some 0x00⟩)) ∧
    decode (.ports ⟨false, some ⟨1, 0, 0⟩, some 0x00⟩) =
      .run (.feed 0x00) (some (.ports ⟨false, some ⟨1, 0, 0⟩, none⟩)) := by decide

/-- The header of MOVE_ABS with axis 0 and length code 0 is 0x0081 (R70); of ABS_POS_REPORT with axis
127 and length code 3, 0x7FFB. -/
theorem test_decode_table_words :
    decodeTableWord 16 0x0081 = some (.moveAbs (.recv 0 [0] 0)) ∧
    decodeTableWord 16 0x7FFB = some (.absPosReport (.recv 0x7F [0, 0, 0, 0] 0)) ∧
    decodeTableWord 8 0x4 = some .reset ∧ decodeTableWord 8 0x1 = some (.feed 0) ∧
    decodeTableWord 8 0x2 = some (.encode 0 0 0) ∧ decodeTableWord 24 0x0081 = none := by decide

/-- A truncated packet (P2) and a byte with bit 7 set first (P5) decode byte by byte; a packet leaves
the bytes after it (P10). -/
theorem test_decode_runs :
    decode (.rx [0x01, 0xAA, 0xFD, 0x00]) = .run (.feed 0x01) (some (.rx [0xAA, 0xFD, 0x00])) ∧
    decode (.rx [0x85, 0x81, 0x80, 0x86]) = .run (.feed 0x85) (some (.rx [0x81, 0x80, 0x86])) ∧
    decode (.rx [0x00, 0x81, 0x85, 0x86, 0x03]) =
      .run (.moveAbs (.recv 0 [0x05] 0x06)) (some (.rx [0x03])) ∧
    decode (.rx []) = .idle := by decide

/-- An operand that SET_CONFIG's 8 bits or RESET_ORIGIN's none cannot carry. -/
theorem test_decode_wide_operand :
    decode (.command 0x07 0 0x100) = .rejected .operandTooWide ∧
    decode (.command 0x00 0 1) = .rejected .operandTooWide := by decide

/-- The units have no encoding (R70). -/
theorem test_units_have_no_encoding :
    encode (.decode 4) = none ∧ encode (.chkGen []) = none ∧ encode (.chkVerify [] 0) = none ∧
    encode (.vliPack 0) = none ∧ encode (.vliUnpackS [0]) = none ∧ encode (.vliUnpackU [0]) = none ∧
    encode (.clamp 0) = none := by decide

/-! ### The units -/

/-- V-CHK. -/
theorem test_chkGen : ∀ v ∈ ([([0x00, 0x81, 0x80], 0x81), ([0x00, 0x80, 0x80], 0x80),
      ([0x7F, 0xFB, 0xC0, 0x80, 0x80, 0x80], 0xBA), ([0x55, 0xDF, 0xFF, 0x9F, 0xC7], 0x99)] :
      List (List Byte × Byte)),
    field State.unitOut (exec (.chkGen v.1) State.reset) = some [.byte v.2] := by decide

/-- V-CHK. -/
theorem test_chkVerify : ∀ v ∈ ([([0x00, 0x81, 0x85], 0x86, true), ([0x00, 0x81, 0x85], 0x87, false),
      ([0x00, 0x81, 0x85], 0x06, true), ([0x80, 0x81, 0x85], 0x86, true)] :
      List (List Byte × Byte × Bool)),
    field State.unitOut (exec (.chkVerify v.1 v.2.1) State.reset) = some [.bit v.2.2] := by decide

/-- V-PK. -/
theorem test_vliPack : ∀ v ∈ ([(0x000003F, [0x3F]), (0x0000040, [0x00, 0x40]), (0x0002000, [0x00, 0x40, 0x00]),
      (0x0100000, [0x00, 0x40, 0x00, 0x00]), (0xFFFFFC0, [0x40]), (0xFFFFFBF, [0x7F, 0x3F]),
      (0xFFFDFFF, [0x7F, 0x3F, 0x7F]), (0x8000000, [0x40, 0x00, 0x00, 0x00])] :
      List (ArgField × List Group)),
    field State.unitOut (exec (.vliPack v.1) State.reset) = some [.groups v.2] := by decide

/-- V-UN: 64 is -28, 7F 3F is -65, 7F 1F 47 is -12345, 40 00 00 00 is -2^27. -/
theorem test_vliUnpackS : ∀ v ∈ ([([0x64], -28), ([0x7F, 0x3F], -65), ([0x7F, 0x1F, 0x47], -12345),
      ([0x40, 0x00, 0x00, 0x00], -134217728), ([0x07, 0x44, 0x40], 123456)] : List (List Group × Value)),
    field State.unitOut (exec (.vliUnpackS v.1) State.reset) = some [.value v.2] := by decide

/-- V-UN: the same groups are 100, 16319, 2084807, 2^27. -/
theorem test_vliUnpackU : ∀ v ∈ ([([0x64], 100), ([0x7F, 0x3F], 16319), ([0x7F, 0x1F, 0x47], 2084807),
      ([0x40, 0x00, 0x00, 0x00], 134217728), ([0x7F, 0x7F, 0x7F, 0x7F], 268435455)] :
      List (List Group × Value)),
    field State.unitOut (exec (.vliUnpackU v.1) State.reset) = some [.value v.2] := by decide

/-- R200, V-CMD: 200 gives 127, 64 itself; 0 and -5 give 1. -/
theorem test_clamp :
    field State.unitOut (exec (.clamp 200) State.reset) = some [.value 127] ∧
    field State.unitOut (exec (.clamp 64) State.reset) = some [.value 64] ∧
    field State.unitOut (exec (.clamp 0) State.reset) = some [.value 1] ∧
    field State.unitOut (exec (.clamp (-5)) State.reset) = some [.value 1] := by
  refine ⟨?_, ?_, ?_, ?_⟩ <;> decide

/-- V-DEC: POS(-134217728), and a failure that leaves the LAST_ registers. -/
theorem test_decode_unit :
    field (fun t => (t.status, t.lastAxis, t.lastFc, t.lastValue, t.events))
      (exec (.decode 7) (holding 7 7 [0x7F, 0xFB, 0xC0, 0x80, 0x80, 0x80, 0xBA])) =
        some (.success, 127, 0x1B, -134217728, [.pos (-134217728)]) ∧
    field (fun t => (t.status, t.events)) (exec (.decode 5) (holding 5 5 [0x00, 0xBB, 0xF8, 0x98, 0xCA])) =
      some (.checksumFailed, [.csfail]) := by decide

/-- D16: not as FEED calls it. -/
theorem test_decode_unit_refused :
    exec (.decode 4) (holding 5 4 [0x00, 0x81, 0x80, 0x81, 0xFF]) = .refused .decodeOutsideFeed := by rfl

/-! ### RESET, ENCODE, FEED -/

/-- P11: RESET in the middle of a packet, and the streams it leaves. -/
theorem test_reset :
    field (fun t => (t.count, t.dlen, t.status, t.buf))
      (exec .reset { holding 2 5 [0x00, 0xBB] with status := .success }) = some (0, 0, .pending, []) ∧
    field (fun t => (t.tx, t.events))
      (exec .reset { State.reset with tx := [0x81], events := [.pos 0] }) = some ([0x81], [.pos 0]) := by
  decide

/-- V-ENC, in the supported range. -/
theorem test_encode : ∀ v ∈ ([(0x01, 0, 64, [0x00, 0xA1, 0x80, 0xC0, 0xE1]),
      (0x01, 0, -65, [0x00, 0xA1, 0xFF, 0xBF, 0xDF]), (0x01, 5, 100000, [0x05, 0xC1, 0x86, 0x8D, 0xA0, 0xF9]),
      (0x1B, 127, -134217728, [0x7F, 0xFB, 0xC0, 0x80, 0x80, 0x80, 0xBA]),
      (0x1F, 0x55, -12345, [0x55, 0xDF, 0xFF, 0x9F, 0xC7, 0x99])] :
      List (Fc × Byte × Value × List Byte)),
    field State.tx (exec (.encode v.1 v.2.1 v.2.2.1) State.reset) = some v.2.2.2 := by decide

/-- V-ENC, out-of-range inputs: 2^28 + 5 as 5, -2^27 - 1 as 2^27 - 1, axis 0xFF as 0x7F. -/
theorem test_encode_out_of_range : ∀ v ∈ ([(0x01, 0, 268435461, [0x00, 0x81, 0x85, 0x86]),
      (0x01, 0, -134217729, [0x00, 0xE1, 0xBF, 0xFF, 0xFF, 0xFF, 0x9D]),
      (0x1F, 0xFF, -1, [0x7F, 0x9F, 0xFF, 0x9D])] : List (Fc × Byte × Value × List Byte)),
    field State.tx (exec (.encode v.1 v.2.1 v.2.2.1) State.reset) = some v.2.2.2 := by decide

/-- V-FA, every row that does not complete a packet: COUNT, DLEN and the event. -/
theorem test_feed_stores : ∀ v ∈ ([(holding 0 0 [], 0x00, 1, 0), (holding 0 0 [], 0x85, 1, 0),
      (holding 1 0 [0x00], 0x07, 1, 0), (holding 1 0 [0x00], 0x81, 2, 4), (holding 1 0 [0x00], 0xFF, 2, 7),
      (holding 2 4 [0x00, 0x81], 0x80, 3, 4), (holding 3 4 [0x00, 0x81, 0x80], 0x00, 1, 0),
      (holding 4 4 [0x00, 0x81, 0x80, 0x81], 0x81, 5, 4),
      (holding 7 4 [0x00, 0x81, 0x80, 0x81, 0xFF, 0xFF, 0xFF], 0xC0, 8, 4),
      (holding 8 4 [0x00, 0x81, 0x80, 0x81, 0xFF, 0xFF, 0xFF, 0xC0], 0xC0, 8, 4),
      (holding 8 4 [0x00, 0x81, 0x80, 0x81, 0xFF, 0xFF, 0xFF, 0xC0], 0x00, 1, 0)] :
      List (State × Byte × BitVec 4 × BitVec 3)),
    field (fun t => (t.count, t.dlen, t.events)) (exec (.feed v.2.1) v.1) = some (v.2.2.1, v.2.2.2, [.none]) := by
  decide

/-- The last bytes of P2 and P4: POS(-1000), and CSFAIL. -/
theorem test_feed_completes :
    field (fun t => (t.count, t.status, t.lastAxis, t.lastValue, t.events))
      (exec (.feed 0xCB) (holding 4 5 [0x00, 0xBB, 0xF8, 0x98])) =
        some (5, .success, 0, -1000, [.pos (-1000)]) ∧
    field (fun t => (t.count, t.status, t.events)) (exec (.feed 0x87) (holding 3 4 [0x00, 0x81, 0x85])) =
      some (4, .checksumFailed, [.csfail]) := by decide

/-! ### The function-code rows -/

/-- V-CMD: what each command puts on the TX stream. -/
theorem test_commands_send : ∀ v ∈ ([
      (.moveAbs (.send 127 1000), [0x7F, 0xA1, 0x87, 0xE8, 0x8F]),
      (.rotate (.send 1 (-300)), [0x01, 0xAA, 0xFD, 0xD4, 0xFC]),
      (.resetOrigin (.send 2 ()), [0x02, 0x80, 0x80, 0x82]),
      (.setMaxSpeed (.send 0 200), [0x00, 0xB4, 0x80, 0xFF, 0xB3]),
      (.setMaxSpeed (.send 0 (-5)), [0x00, 0x94, 0x81, 0x95]),
      (.setMaxAccel (.send 0 127), [0x00, 0xB5, 0x80, 0xFF, 0xB4]),
      (.setMainGain (.send 0 64), [0x00, 0xB0, 0x80, 0xC0, 0xF0]),
      (.setSpeedGain (.send 0 50), [0x00, 0x91, 0xB2, 0xC3]),
      (.setIntGain (.send 0 1), [0x00, 0x92, 0x81, 0x93]),
      (.setConfig (.send 1 0xFF), [0x01, 0xA7, 0x81, 0xFF, 0xA8]),
      (.paramRead (.send 0 0x40), [0x00, 0xAE, 0x80, 0xC0, 0xEE]),
      (.absPosReport (.send 0 (-1000)), [0x00, 0xBB, 0xF8, 0x98, 0xCB])] : List (Instr × List Byte)),
    field State.tx (exec v.1 State.reset) = some v.2 := by decide

/-- R211 on transmit, worked from R150: the argument -12345 for axis 0x55 (V-ENC has code 0x1F). -/
theorem test_unnamed_send : ∀ v ∈ ([
      (.fc02 (.send 0x55 (-12345)), [0x55, 0xC2, 0xFF, 0x9F, 0xC7, 0xFC]),
      (.fc03 (.send 0x55 (-12345)), [0x55, 0xC3, 0xFF, 0x9F, 0xC7, 0xFD]),
      (.fc04 (.send 0x55 (-12345)), [0x55, 0xC4, 0xFF, 0x9F, 0xC7, 0xFE]),
      (.fc05 (.send 0x55 (-12345)), [0x55, 0xC5, 0xFF, 0x9F, 0xC7, 0xFF]),
      (.fc06 (.send 0x55 (-12345)), [0x55, 0xC6, 0xFF, 0x9F, 0xC7, 0x80]),
      (.fc08 (.send 0x55 (-12345)), [0x55, 0xC8, 0xFF, 0x9F, 0xC7, 0x82]),
      (.fc09 (.send 0x55 (-12345)), [0x55, 0xC9, 0xFF, 0x9F, 0xC7, 0x83]),
      (.fc0B (.send 0x55 (-12345)), [0x55, 0xCB, 0xFF, 0x9F, 0xC7, 0x85]),
      (.fc0C (.send 0x55 (-12345)), [0x55, 0xCC, 0xFF, 0x9F, 0xC7, 0x86]),
      (.fc0D (.send 0x55 (-12345)), [0x55, 0xCD, 0xFF, 0x9F, 0xC7, 0x87]),
      (.fc0F (.send 0x55 (-12345)), [0x55, 0xCF, 0xFF, 0x9F, 0xC7, 0x89]),
      (.fc13 (.send 0x55 (-12345)), [0x55, 0xD3, 0xFF, 0x9F, 0xC7, 0x8D]),
      (.fc16 (.send 0x55 (-12345)), [0x55, 0xD6, 0xFF, 0x9F, 0xC7, 0x90]),
      (.fc17 (.send 0x55 (-12345)), [0x55, 0xD7, 0xFF, 0x9F, 0xC7, 0x91]),
      (.fc18 (.send 0x55 (-12345)), [0x55, 0xD8, 0xFF, 0x9F, 0xC7, 0x92]),
      (.fc19 (.send 0x55 (-12345)), [0x55, 0xD9, 0xFF, 0x9F, 0xC7, 0x93]),
      (.fc1A (.send 0x55 (-12345)), [0x55, 0xDA, 0xFF, 0x9F, 0xC7, 0x94]),
      (.fc1C (.send 0x55 (-12345)), [0x55, 0xDC, 0xFF, 0x9F, 0xC7, 0x96]),
      (.fc1D (.send 0x55 (-12345)), [0x55, 0xDD, 0xFF, 0x9F, 0xC7, 0x97]),
      (.fc1E (.send 0x55 (-12345)), [0x55, 0xDE, 0xFF, 0x9F, 0xC7, 0x98]),
      (.fc1F (.send 0x55 (-12345)), [0x55, 0xDF, 0xFF, 0x9F, 0xC7, 0x99])] : List (Instr × List Byte)),
    field State.tx (exec v.1 State.reset) = some v.2 := by decide

/-- R211 and its corner case on receive: every row but ABS_POS_REPORT records its packet and raises a
generic report; the bytes are those of the argument 5 for axis 3. -/
theorem test_received_is_generic : ∀ v ∈ ([
      (.resetOrigin (.recv 3 [0x05] 0x08), 0x00, [0x03, 0x80, 0x85, 0x88]),
      (.moveAbs (.recv 3 [0x05] 0x09), 0x01, [0x03, 0x81, 0x85, 0x89]),
      (.fc02 (.recv 3 [0x05] 0x0A), 0x02, [0x03, 0x82, 0x85, 0x8A]),
      (.fc03 (.recv 3 [0x05] 0x0B), 0x03, [0x03, 0x83, 0x85, 0x8B]),
      (.fc04 (.recv 3 [0x05] 0x0C), 0x04, [0x03, 0x84, 0x85, 0x8C]),
      (.fc05 (.recv 3 [0x05] 0x0D), 0x05, [0x03, 0x85, 0x85, 0x8D]),
      (.fc06 (.recv 3 [0x05] 0x0E), 0x06, [0x03, 0x86, 0x85, 0x8E]),
      (.setConfig (.recv 3 [0x05] 0x0F), 0x07, [0x03, 0x87, 0x85, 0x8F]),
      (.fc08 (.recv 3 [0x05] 0x10), 0x08, [0x03, 0x88, 0x85, 0x90]),
      (.fc09 (.recv 3 [0x05] 0x11), 0x09, [0x03, 0x89, 0x85, 0x91]),
      (.rotate (.recv 3 [0x05] 0x12), 0x0A, [0x03, 0x8A, 0x85, 0x92]),
      (.fc0B (.recv 3 [0x05] 0x13), 0x0B, [0x03, 0x8B, 0x85, 0x93]),
      (.fc0C (.recv 3 [0x05] 0x14), 0x0C, [0x03, 0x8C, 0x85, 0x94]),
      (.fc0D (.recv 3 [0x05] 0x15), 0x0D, [0x03, 0x8D, 0x85, 0x95]),
      (.paramRead (.recv 3 [0x05] 0x16), 0x0E, [0x03, 0x8E, 0x85, 0x96]),
      (.fc0F (.recv 3 [0x05] 0x17), 0x0F, [0x03, 0x8F, 0x85, 0x97]),
      (.setMainGain (.recv 3 [0x05] 0x18), 0x10, [0x03, 0x90, 0x85, 0x98]),
      (.setSpeedGain (.recv 3 [0x05] 0x19), 0x11, [0x03, 0x91, 0x85, 0x99]),
      (.setIntGain (.recv 3 [0x05] 0x1A), 0x12, [0x03, 0x92, 0x85, 0x9A]),
      (.fc13 (.recv 3 [0x05] 0x1B), 0x13, [0x03, 0x93, 0x85, 0x9B]),
      (.setMaxSpeed (.recv 3 [0x05] 0x1C), 0x14, [0x03, 0x94, 0x85, 0x9C]),
      (.setMaxAccel (.recv 3 [0x05] 0x1D), 0x15, [0x03, 0x95, 0x85, 0x9D]),
      (.fc16 (.recv 3 [0x05] 0x1E), 0x16, [0x03, 0x96, 0x85, 0x9E]),
      (.fc17 (.recv 3 [0x05] 0x1F), 0x17, [0x03, 0x97, 0x85, 0x9F]),
      (.fc18 (.recv 3 [0x05] 0x20), 0x18, [0x03, 0x98, 0x85, 0xA0]),
      (.fc19 (.recv 3 [0x05] 0x21), 0x19, [0x03, 0x99, 0x85, 0xA1]),
      (.fc1A (.recv 3 [0x05] 0x22), 0x1A, [0x03, 0x9A, 0x85, 0xA2]),
      (.fc1C (.recv 3 [0x05] 0x24), 0x1C, [0x03, 0x9C, 0x85, 0xA4]),
      (.fc1D (.recv 3 [0x05] 0x25), 0x1D, [0x03, 0x9D, 0x85, 0xA5]),
      (.fc1E (.recv 3 [0x05] 0x26), 0x1E, [0x03, 0x9E, 0x85, 0xA6]),
      (.fc1F (.recv 3 [0x05] 0x27), 0x1F, [0x03, 0x9F, 0x85, 0xA7])] : List (Instr × Fc × List Byte)),
    field (fun t => (t.status, t.lastAxis, t.lastFc, t.buf.map Prod.snd, t.events.map Event.kind))
      (exec v.1 State.reset) = some (.success, 3, v.2.1, v.2.2, [0, 0, 0, 2]) := by decide

/-- P8 and V-DEC: the position report, received; and with a wrong checksum. -/
theorem test_received_position :
    field (fun t => (t.status, t.lastAxis, t.lastValue, t.events))
      (exec (.absPosReport (.recv 127 [0x40, 0, 0, 0] 0x3A)) State.reset) =
        some (.success, 127, -134217728, [.none, .none, .none, .none, .none, .none, .pos (-134217728)]) ∧
    field (fun t => (t.status, t.events))
      (exec (.absPosReport (.recv 0 [0x78, 0x18] 0x4A)) State.reset) =
        some (.checksumFailed, [.none, .none, .none, .none, .csfail]) := by decide

/-! ### The step -/

/-- A step takes the host's next move: the table word of ABS_POS_REPORT, which arrives as
`00 9B 80 80` and fails its checksum (0x1B is right). -/
theorem test_step_table_word :
    field (fun t => (t.count, t.status, t.inputs)) (step (State.reset.withFetchWord 16 0x009B)) =
      some (4, .checksumFailed, []) := by decide

/-- The pulse vector 011: FEED first, ENCODE in the next step (D3). -/
theorem test_step_pulses :
    field (fun t => (t.events, t.tx, t.inputs)) (step (State.reset.withFetchWord 8 0b011)) =
      some ([.none], [], [.ports ⟨false, some ⟨0, 0, 0⟩, none⟩]) ∧
    field (fun t => (t.tx, t.inputs))
      (step { State.reset with inputs := [.ports ⟨false, some ⟨0, 0, 0⟩, none⟩] }) =
        some ([0x00, 0x80, 0x80, 0x80], []) := by decide

/-- An operand no port can carry stops the step by name; with no move the block holds its state. -/
theorem test_step_stops_and_holds :
    step { State.reset with inputs := [.command 0x07 0 0x100] } = .refused (.undecodable .operandTooWide) ∧
    field State.inputs (step State.reset) = some [] := ⟨rfl, rfl⟩

/-! ### Witnesses: each statement's hypotheses are met, clause by clause

`mid` holds three bytes of a 4-byte packet (P1), `six` six bytes of a 7-byte one (V-FA), `done` a
completed packet, `full` eight bytes. -/

def mid : State := holding 3 4 [0x00, 0x81, 0x80]

def six : State := holding 6 7 [0x00, 0xE1, 0x80, 0x80, 0x80, 0x85]

def done : State := holding 4 4 [0x00, 0x81, 0x80, 0x81]

def full : State := holding 8 4 [0x00, 0x81, 0x80, 0x81, 0xFF, 0xFF, 0xFF, 0xC0]

/-- `SingleBitFlipsAreSeenButForBitSeven`, at bits 0 and 7. -/
theorem witness_single_bit_flips :
    0 < 8 ∧ 7 < 8 ∧ chkVerify ([0x00, 0x81] ++ 0x85 :: []) 0x86 = true := by decide

/-- `CancellingChangesAreMissed`: S6, `01 81 84` for `00 81 85`, and a permutation. -/
theorem witness_cancelling_changes :
    byteSum [0x01, 0x81, 0x84] % 128 = byteSum [0x00, 0x81, 0x85] % 128 ∧
    List.Perm [(0x00 : Byte), 0x81] [0x81, 0x00] := by decide

/-- `VliUnpackSignedReads`, `VliUnpackUnsignedReads`, and the received forms of
`PositionReportBothDirections`, `UnnamedCodesBothDirections`, `CommandCodesReceivedAreGeneric`: 1 and
4 groups. -/
theorem witness_group_counts : ∀ g ∈ [[(0x40 : Group)], [0x40, 0, 0, 0]], 1 ≤ g.length ∧ g.length ≤ 4 := by
  decide

/-- `OtherGroupCountsRefused`: 0 and 5 groups. -/
theorem witness_other_group_counts : ∀ g ∈ [[], [(0 : Group), 0, 0, 0, 0]], g.length = 0 ∨ 4 < g.length := by
  decide

/-- `VliRoundTrip`: a field of each sign. -/
theorem witness_vli_round_trip :
    (0x7FFFFFF : ArgField).msb = false ∧ (0x8000000 : ArgField).msb = true := by decide

/-- `VliPackImage`: two equal outputs, and a sequence of two groups. -/
theorem witness_vli_pack_image :
    vliPack 0x40 = vliPack 0x40 ∧ ∃ x y rest, vliPack 0x40 = x :: y :: rest := ⟨rfl, 0x00, 0x40, [], by decide⟩

/-- `EncodeMasksArgument`: both ends of the supported range, and two arguments that agree modulo 2^28. -/
theorem witness_encode_masks :
    (∀ arg ∈ [(-134217728 : Value), 134217727], -(2 ^ 27) ≤ arg.toInt ∧ arg.toInt ≤ 2 ^ 27 - 1) ∧
    (5 : Value).toInt % 2 ^ 28 = (268435461 : Value).toInt % 2 ^ 28 := by simp

/-- The model tells 2^20 + 5 and 5 apart, which a narrower mask would not (V-ENC has 5). -/
theorem witness_encode_mask_is_wide :
    field State.tx (exec (.encode 0x01 0 5) State.reset) = some [0x00, 0x81, 0x85, 0x86] ∧
    field State.tx (exec (.encode 0x01 0 1048581) State.reset) ≠ some [0x00, 0x81, 0x85, 0x86] := by decide

/-- `CanonicalPacketsAreTheEncodes`: a canonical packet of each extreme length (S1, P8). -/
theorem witness_canonical :
    Canonical [0x00, 0x81, 0x80, 0x81] ∧ Canonical [0x7F, 0xFB, 0xC0, 0x80, 0x80, 0x80, 0xBA] :=
  ⟨⟨0x00, 0x81, [0x80], 0x81, rfl, by decide⟩, ⟨0x7F, 0xFB, [0xC0, 0x80, 0x80, 0x80], 0xBA, rfl, by decide⟩⟩

/-- `FeedAddressByteRestarts`: both ends of the address bytes. -/
theorem witness_address_bytes : (0x00 : Byte).toNat < 128 ∧ (0x7F : Byte).toNat < 128 := by decide

/-- `FeedAppendsUnlessFull`: each clause, the first at COUNT 0 and 7. -/
theorem witness_feed_appends :
    (128 ≤ (0x80 : Byte).toNat ∧ State.reset.count.toNat < 8 ∧ ∃ t, exec (.feed 0x80) State.reset = .next t) ∧
    (let s := holding 7 4 [0x00, 0x81, 0x80, 0x81, 0xFF, 0xFF, 0xFF]
     s.count.toNat < 8 ∧ ∃ t, exec (.feed 0x80) s = .next t) ∧
    8 ≤ full.count.toNat ∧
    ∃ t, exec (.feed 0x00) full = .next t := by
  refine ⟨⟨by decide, by decide, _, rfl⟩, ⟨by decide, _, rfl⟩, by decide, _, rfl⟩

/-- `FeedBeforeCompletionRaisesNothing`: the control byte, a data byte, and the eighth byte. -/
theorem witness_feed_before_completion :
    (holding 1 0 [0x00]).count = 1 ∧
    (let s := holding 2 4 [0x00, 0x81]; s.count.toNat < 8 ∧ s.count.toNat + 1 ≠ s.dlen.toNat) ∧
    (let s := holding 7 4 [0x00, 0x81, 0x80, 0x81, 0xFF, 0xFF, 0xFF]
     s.count.toNat < 8 ∧ s.count.toNat + 1 ≠ s.dlen.toNat) := by decide

/-- `FeedControlByteDeclaresLength`: each clause. -/
theorem witness_feed_control :
    (holding 1 0 [0x00]).count = 1 ∧ mid.count ≠ 1 ∧ ∃ t, exec (.feed 0xFF) mid = .next t :=
  ⟨rfl, by decide, _, rfl⟩

/-- `FeedCompletionCallsDecode`: a packet of 4 bytes and one of 7. -/
theorem witness_feed_completion : ∀ s ∈ [mid, six], 4 ≤ s.dlen.toNat ∧ s.count.toNat + 1 = s.dlen.toNat := by
  decide

/-- `FeedRaisesExactlyOneEvent`, `StepKeepsInvariant`, `StepNeverStops`: states of the invariant. -/
theorem witness_invariant : ∀ s ∈ [State.reset, mid, six, done, full], s.Inv := by decide

/-- `TruncatedPacketIsSilent`: no byte after the control byte, and one byte short of the packet. -/
theorem witness_truncated :
    (0x01 : Byte).toNat < 128 ∧ 128 ≤ (0xAA : Byte).toNat ∧
    ∀ bytes ∈ [[], [(0xFD : Byte), 0xD4]], (∀ b ∈ bytes, 128 ≤ b.toNat) ∧
      bytes.length + 2 < 4 + (0xAA : Byte).toNat / 32 % 4 := by decide

/-- `TrailingBytesRaiseNothing`: six bytes after a completed packet (P3): four are stored, two dropped. -/
theorem witness_trailing :
    done.Inv ∧ 2 ≤ done.count.toNat ∧ done.dlen.toNat ≤ done.count.toNat ∧
    ∀ b ∈ List.replicate 6 (0xFF : Byte), 128 ≤ b.toNat := by decide

/-- `ChecksumFailureWritesStatusOnly` (V-DEC). -/
theorem witness_checksum_failure :
    let s := holding 4 4 [0x00, 0x81, 0x85, 0x87]
    s.count.toNat = s.dlen.toNat ∧ 4 ≤ s.dlen.toNat ∧
    byteSum ((List.range (s.dlen.toNat - 1)).map s.bufByte) % 256 % 128 ≠
      (s.bufByte (s.dlen.toNat - 1)).toNat % 128 := by decide

/-- `AcceptedPacketIsRecordedAndReported` (V-DEC), at lengths 4 and 7. -/
theorem witness_accepted_packet :
    ∀ s ∈ [done, holding 7 7 [0x7F, 0xFB, 0xC0, 0x80, 0x80, 0x80, 0xBA]],
    s.count.toNat = s.dlen.toNat ∧ 4 ≤ s.dlen.toNat ∧
    byteSum ((List.range (s.dlen.toNat - 1)).map s.bufByte) % 256 % 128 =
      (s.bufByte (s.dlen.toNat - 1)).toNat % 128 := by decide

/-- `DecodeRefusedOutsideFeed`: lengths 3 and 8, and each of COUNT and DLEN other than the length. -/
theorem witness_decode_refused :
    3 < 4 ∧ 7 < 8 ∧ (holding 5 4 []).count.toNat ≠ 4 ∧ (holding 4 5 []).dlen.toNat ≠ 4 := by decide

/-- `EncodedPacketDecodesToItsFields`: both ends of the supported range, and a negative argument. -/
theorem witness_encoded_packet :
    ∀ arg ∈ [(-134217728 : Value), -1, 134217727], -(2 ^ 27) ≤ arg.toInt ∧ arg.toInt ≤ 2 ^ 27 - 1 := by
  simp

/-- `DecodeOfEncodeIsTheInstruction`: a packet and a command. -/
theorem witness_decode_of_encode :
    (Instr.moveAbs (.recv 0 [0x05] 0x06)).wellFormed = true ∧
    encode (.moveAbs (.recv 0 [0x05] 0x06)) = some (.rx [0x00, 0x81, 0x85, 0x86]) ∧
    encode (.setConfig (.send 1 0xFF)) = some (.command 0x07 1 0xFF) := by decide

/-- `ReceivedRunIsItsFeeds`: a run that starts with a packet, and one that does not. -/
theorem witness_received_run :
    decode (.rx [0x00, 0x81, 0x80, 0x81]) = .run (.moveAbs (.recv 0 [0x00] 0x01)) none ∧
    decode (.rx [0x05, 0x03]) = .run (.feed 0x05) (some (.rx [0x03])) := by decide

/-- `StepRunsTheDecodedInstruction`: each clause; `StepNeverStops`: such a head of the queue. -/
theorem witness_step :
    let s := { State.reset with inputs := [.ports ⟨true, none, none⟩, .ports ⟨false, none, none⟩] }
    (s.inputs = .ports ⟨true, none, none⟩ :: [.ports ⟨false, none, none⟩] ∧
      decode (.ports ⟨true, none, none⟩) = .run .reset none) ∧
    State.reset.inputs = [] ∧ decode (.ports ⟨false, none, none⟩) = .idle ∧
    s.Inv ∧ ∀ r ∈ s.inputs.head?, ∀ e, decode r ≠ .rejected e := by
  refine ⟨⟨rfl, by decide⟩, rfl, by decide, by decide, ?_⟩
  rintro r ⟨⟩ e
  exact nofun

/-- `SimultaneousPulsesInOrder`: the vectors 111, 101 and 110, and 011 with a legal DLEN. -/
theorem witness_simultaneous_pulses :
    (∀ p ∈ ([⟨true, some ⟨1, 0, 0⟩, some 0x00⟩, ⟨true, none, some 0x00⟩, ⟨true, some ⟨1, 0, 0⟩, none⟩] :
      List Ports), ∃ s : State, s.inputs = [.ports p]) ∧
    ∃ s : State, s.LegalDlen ∧ s.inputs = [.ports ⟨false, some ⟨1, 0, 0⟩, some 0x00⟩] :=
  ⟨fun p _ => ⟨{ State.reset with inputs := [.ports p] }, rfl⟩,
    { mid with inputs := [.ports ⟨false, some ⟨1, 0, 0⟩, some 0x00⟩] }, by decide, rfl⟩

/-- `WellFormedInstructionsComplete`: an instruction that is not DECODE, and DECODE of a held packet. -/
theorem witness_well_formed_complete :
    mid.Inv ∧ (Instr.feed 0x81).wellFormed = true ∧ (∀ len, Instr.feed 0x81 ≠ .decode len) ∧
    done.Inv ∧ (Instr.decode 4).wellFormed = true ∧ done.count.toNat = 4 ∧ done.dlen.toNat = 4 :=
  ⟨by decide, rfl, fun _ => nofun, by decide, by decide, by decide, by decide⟩

/-- `StepKeepsInvariant`: a step from a state of the invariant. -/
theorem witness_step_next :
    { mid with inputs := [.rx [0x81]] }.Inv ∧ ∃ t, step { mid with inputs := [.rx [0x81]] } = .next t :=
  ⟨by decide, _, rfl⟩

/-- `EncodeCommutesWithReceivePath`, `HistoriesOnlyGrow`: RESET and a FEED have a next state. -/
theorem witness_receive_path :
    (∃ t, exec .reset mid = .next t) ∧ ∃ t, exec (.feed 0x81) mid = .next t := ⟨⟨_, rfl⟩, _, rfl⟩

/-- `StaleBytesAreNeverRead`: states that differ in a byte at COUNT and in the draws. -/
theorem witness_stale_bytes :
    let s := holding 2 5 [0x00, 0xBB]
    let t := { holding 2 5 [0x00, 0xBB, 0xFD] with freeCount := 7 }
    s.Inv ∧ t.Inv ∧ AgreeBelowCount s t ∧ s ≠ t := by
  refine ⟨by decide, by decide, ⟨rfl, rfl, rfl, rfl, rfl, rfl, rfl, rfl, rfl, rfl, by decide⟩, ?_⟩
  intro h
  exact absurd (congrArg State.freeCount h) (by decide)

/-- `AddressByteStaysUntilReset`, `OnlyResetReturnsToPending`: a FEED that is not RESET. -/
theorem witness_address_byte_held :
    Instr.feed 0x81 ≠ .reset ∧ 1 ≤ mid.count.toNat ∧ (mid.bufByte 0).toNat < 128 ∧
    ∃ t, exec (.feed 0x81) mid = .next t := ⟨by decide, by decide, by decide, _, rfl⟩

/-- `OnlyResetReturnsToPending`: STATUS still PENDING after an ENCODE, and a LAST_ register changed by
an accepted packet. -/
theorem witness_status_changes :
    field State.status (exec (.encode 1 0 0) State.reset) = some .pending ∧
    field State.lastAxis (exec (.feed 0x9C) { holding 3 4 [0x01, 0x9B, 0x80] with lastAxis := 0 }) = some 1 := by
  decide

/-- `EmittingLeavesSessionState`: ENCODE changes the TX stream. -/
theorem witness_emitting :
    ∃ t, exec (.encode 1 0 0) State.reset = .next t ∧ t.tx ≠ State.reset.tx := ⟨_, rfl, by decide⟩

end Sys2Proof.Tests
end

/-! ## The family of the state: the invariant, what the histories and the session registers keep

The invariant of R33 is split into what it says of BUF and what it says of DLEN, so that storing a byte
and declaring the length have one lemma each. What an instruction does to the packet in progress is said
once (`exec_assembly`): it feeds bytes, or leaves COUNT, DLEN and BUF. -/

namespace Sys2Proof.Machine

/-! ### Reset -/

/-- Settles O1: the fields `State.reset` gives a value, read off. -/
theorem powerOnState : Obligations.PowerOnState := ⟨rfl, rfl, rfl, rfl, rfl⟩

/-! ### What a FEED that has a next state does -/

/-- `feedOp_cases` read from the next state: restart, drop, declare, store, or complete (R126). -/
theorem feedOp_next_cases {b : Byte} {s t : State} (h : feedOp b s = .next t) :
    (framingBit b = false ∧ t = (s.restart.append b).raise .none) ∨
    (framingBit b = true ∧ 8 ≤ s.count.toNat ∧ t = s.raise .none) ∨
    (framingBit b = true ∧ s.count = 1 ∧
      t = ((s.append b).declare (4 + (controlLc b).setWidth 3)).raise .none) ∨
    (framingBit b = true ∧ s.count.toNat < 8 ∧ s.count ≠ 1 ∧ s.count.toNat + 1 ≠ s.dlen.toNat ∧
      t = (s.append b).raise .none) ∨
    (framingBit b = true ∧ s.count.toNat < 8 ∧ s.count ≠ 1 ∧ s.count.toNat + 1 = s.dlen.toNat ∧
      4 ≤ s.dlen.toNat ∧
      t = (decodeOp s.dlen.toNat (s.append b)).1.raise (decodeOp s.dlen.toNat (s.append b)).2) := by
  have hcases := feedOp_cases b s
  simp only [h, Host.Outcome.next.injEq, reduceCtorEq, and_false, or_false] at hcases
  exact hcases

/-! ### The packet in progress -/

/-- Two states with the same packet in progress: COUNT, DLEN, and what BUF is read through. -/
structure SameAssembly (s t : State) : Prop where
  count : t.count = s.count
  dlen : t.dlen = s.dlen
  buf : t.buf = s.buf
  freeCount : t.freeCount = s.freeCount

theorem SameAssembly.bufByte {s t : State} (h : SameAssembly s t) (i : Nat) : t.bufByte i = s.bufByte i :=
  State.bufByte_congr h.buf h.freeCount i

/-- DECODE and the raising of its event leave the packet in progress (R170). -/
theorem decodeOp_sameAssembly (len : Nat) (s : State) :
    SameAssembly s ((decodeOp len s).1.raise (decodeOp len s).2) := by
  rcases decodeOp_cases len s with ⟨axis, fc, value, h⟩ | h <;> rw [h] <;> exact ⟨rfl, rfl, rfl, rfl⟩

/-- What an instruction other than RESET does to the packet in progress: it feeds bytes, or it leaves it. -/
theorem exec_assembly {i : Instr} {s t : State} (hi : i ≠ .reset) (h : exec i s = .next t) :
    (∃ bytes, feedAll bytes s = .next t) ∨ SameAssembly s t := by
  rcases exec_cases h with ⟨hr, -⟩ | ⟨b, hb⟩ | ⟨fc, axis, data, check, hg, hr⟩ | ⟨bytes, -, rfl⟩ |
    ⟨out, rfl⟩ | ⟨-, -, rfl⟩
  · exact absurd hr hi
  · exact .inl ⟨[b], feedAll_cons_next hb []⟩
  · rw [receiveOp, if_pos hg] at hr
    exact .inl ⟨_, hr⟩
  · exact .inr ⟨rfl, rfl, rfl, rfl⟩
  · exact .inr ⟨rfl, rfl, rfl, rfl⟩
  · exact .inr (decodeOp_sameAssembly _ s)

/-- What every FEED keeps, and depends on the packet in progress alone, every instruction but RESET keeps. -/
theorem exec_keeps {P : State → Prop} (hsame : ∀ {u v}, SameAssembly u v → P u → P v)
    (hfeed : ∀ b u v, P u → feedOp b u = .next v → P v) {i : Instr} {s t : State} (hi : i ≠ .reset)
    (hs : P s) (h : exec i s = .next t) : P t := by
  rcases exec_assembly hi h with ⟨bytes, hf⟩ | ha
  · exact feedAll_induct hfeed hs hf
  · exact hsame ha hs

/-! ### The invariant of R33 -/

/-- What the invariant says of BUF: the bytes below COUNT are written, those after the first have bit 7
set, and the buffer is canonical (R33 items 1, 4, 5). -/
def State.BufInv (s : State) : Prop :=
  s.count.toNat ≤ Config.bufCap ∧
  (∀ i < s.count.toNat, (s.buf.get? i).isSome = true) ∧
  (∀ i < s.count.toNat, 1 ≤ i → framingBit (s.bufByte i) = true) ∧
  s.buf.wf = true

/-- What the invariant says of DLEN: it is declared by the second byte (R33 items 2, 3). -/
def State.DlenInv (s : State) : Prop :=
  (s.dlen = 0 ↔ s.count.toNat < 2) ∧
  (2 ≤ s.count.toNat → s.dlen.toNat = 4 + (controlLc (s.bufByte 1)).toNat)

theorem State.inv_iff (s : State) : s.Inv ↔ s.BufInv ∧ s.DlenInv := by
  unfold State.Inv State.BufInv State.DlenInv
  tauto

theorem SameAssembly.inv {s t : State} (h : SameAssembly s t) (hs : s.Inv) : t.Inv := by
  simpa only [State.Inv, h.bufByte, h.count, h.dlen, h.buf] using hs

/-- With no byte held and no index of BUF listed the invariant holds. -/
theorem State.inv_of_empty {s : State} (hc : s.count = 0) (hd : s.dlen = 0) (hb : s.buf = []) : s.Inv := by
  simp [State.Inv, hc, hd, hb]

/-- A restart holds no byte, so only the canonical form is left to keep (R121). -/
theorem State.BufInv.restart {s : State} (hs : s.BufInv) : s.restart.BufInv := by
  obtain ⟨-, -, -, hwf⟩ := hs
  exact ⟨by simp, by simp, by simp, hwf⟩

/-- Storing the first byte, or a byte with bit 7 set, below the capacity (R122). -/
theorem State.BufInv.append {s : State} {b : Byte} (hs : s.BufInv) (hc : s.count.toNat < 8)
    (hb : s.count.toNat = 0 ∨ framingBit b = true) : (s.append b).BufInv := by
  obtain ⟨-, hsome, hframe, hwf⟩ := hs
  have hcount : (s.append b).count.toNat = s.count.toNat + 1 := count_add_one_toNat hc
  refine ⟨by rw [hcount]; exact hc, fun i hi => ?_, fun i hi h1 => ?_, Memory.wf_set b hc hwf⟩
  · rw [State.append_buf, Memory.get?_set]
    split
    · rfl
    · exact hsome i (by omega)
  · rw [State.append_bufByte]
    split
    · exact hb.resolve_left (by omega)
    · exact hframe i (by omega) h1

/-- Storing a byte other than the second keeps the declaration: index 1 is left (R122, R123). -/
theorem State.DlenInv.append {s : State} (b : Byte) (hs : s.DlenInv) (hc : s.count.toNat < 8)
    (h1 : s.count.toNat ≠ 1) : (s.append b).DlenInv := by
  obtain ⟨hzero, hdecl⟩ := hs
  have hcount : (s.append b).count.toNat = s.count.toNat + 1 := count_add_one_toNat hc
  refine ⟨?_, fun h2 => ?_⟩
  · rw [State.append_dlen, hzero, hcount]
    omega
  · rw [State.append_dlen, State.append_bufByte, if_neg h1]
    exact hdecl (by omega)

theorem State.restart_dlenInv (s : State) : s.restart.DlenInv := by
  simp [State.DlenInv]

/-- The length a control byte declares is 4 plus its length code, and not 0 (R123). -/
theorem declaredLength_toNat (lc : LengthCode) : (4 + lc.setWidth 3 : BitVec 3).toNat = 4 + lc.toNat := by
  revert lc; decide

/-- Storing the second byte and declaring its length (R123). -/
theorem State.append_declare_dlenInv {s : State} (b : Byte) (hc : s.count = 1) :
    ((s.append b).declare (4 + (controlLc b).setWidth 3)).DlenInv := by
  have hlen := declaredLength_toNat (controlLc b)
  refine ⟨?_, fun _ => ?_⟩
  · rw [State.declare_dlen, State.declare_count, State.append_count, hc, ← BitVec.toNat_inj, hlen]
    simp
  · rw [State.declare_dlen, hlen, State.declare_bufByte, State.append_bufByte, if_pos (by simp [hc])]

/-- Storing a byte with bit 7 set other than the second. -/
theorem State.Inv.append {s : State} {b : Byte} (hs : s.Inv) (hb : framingBit b = true)
    (hc : s.count.toNat < 8) (h1 : s.count ≠ 1) : (s.append b).Inv := by
  rw [State.inv_iff] at hs ⊢
  exact ⟨hs.1.append hc (.inr hb), hs.2.append b hc fun h => h1 (BitVec.eq_of_toNat_eq h)⟩

/-- Storing the second byte, with its declaration. -/
theorem State.Inv.append_declare {s : State} {b : Byte} (hs : s.Inv) (hb : framingBit b = true)
    (h1 : s.count = 1) : ((s.append b).declare (4 + (controlLc b).setWidth 3)).Inv := by
  rw [State.inv_iff] at hs ⊢
  exact ⟨hs.1.append (by simp [h1]) (.inr hb), State.append_declare_dlenInv b h1⟩

/-- Discarding the packet in progress and storing an address byte. -/
theorem State.Inv.restart_append {s : State} (b : Byte) (hs : s.Inv) : (s.restart.append b).Inv := by
  rw [State.inv_iff] at hs ⊢
  exact ⟨hs.1.restart.append (by simp) (.inl rfl), s.restart_dlenInv.append b (by simp) (by simp)⟩

/-- Every FEED keeps the invariant. Raising NONE changes nothing `Inv` reads. -/
theorem feedOp_inv (b : Byte) (s t : State) (hs : s.Inv) (h : feedOp b s = .next t) : t.Inv := by
  rcases feedOp_next_cases h with ⟨-, rfl⟩ | ⟨-, -, rfl⟩ | ⟨hb, h1, rfl⟩ | ⟨hb, hc, h1, -, rfl⟩ |
    ⟨hb, hc, h1, -, -, rfl⟩
  · exact hs.restart_append b
  · exact hs
  · exact hs.append_declare hb h1
  · exact hs.append hb hc h1
  · exact (decodeOp_sameAssembly _ _).inv (hs.append hb hc h1)

/-- Every instruction keeps the invariant. -/
theorem exec_inv {i : Instr} {s t : State} (hs : s.Inv) (h : exec i s = .next t) : t.Inv := by
  by_cases hi : i = .reset
  · subst hi
    cases h
    exact State.inv_of_empty rfl rfl rfl
  · exact exec_keeps SameAssembly.inv feedOp_inv hi hs h

/-- Settles O44: nothing is held after reset. -/
theorem resetStateMeetsInvariant : Obligations.ResetStateMeetsInvariant :=
  State.inv_of_empty rfl rfl rfl

/-- What a step is: nothing, or a move taken, or the instruction the move starts with. -/
theorem step_cases {s t : State} (h : step s = .next t) :
    (∃ rs, t = s.withInputs rs) ∨ (∃ i rs, exec i (s.withInputs rs) = .next t) := by
  unfold step takeInput at h
  cases hq : s.inputs with
  | nil =>
    simp only [hq, Host.Outcome.next.injEq] at h
    exact .inl ⟨s.inputs, h.symm⟩
  | cons r rs =>
    cases hd : decode r with
    | run i rest =>
      simp only [hq, hd] at h
      exact .inr ⟨i, _, h⟩
    | idle =>
      simp only [hq, hd, Host.Outcome.next.injEq] at h
      exact .inl ⟨rs, h.symm⟩
    | rejected e => simp [hq, hd] at h

/-- Settles O45: `Inv` does not read the queue of moves, and every instruction keeps it. -/
theorem stepKeepsInvariant : Obligations.StepKeepsInvariant := by
  intro s t hs h
  have hq : ∀ rs, (s.withInputs rs).Inv := fun _ => hs
  rcases step_cases h with ⟨rs, rfl⟩ | ⟨i, rs, he⟩
  · exact hq rs
  · exact exec_inv (hq rs) he

/-! ### The address byte -/

/-- An address byte is held: BUF[0] is below COUNT and has bit 7 clear (R33 item 6). -/
def State.HoldsAddress (s : State) : Prop := 1 ≤ s.count.toNat ∧ (s.bufByte 0).toNat < 128

theorem SameAssembly.holdsAddress {s t : State} (h : SameAssembly s t) (hs : s.HoldsAddress) :
    t.HoldsAddress := by
  simpa only [State.HoldsAddress, h.bufByte, h.count] using hs

/-- A byte stored after the address byte leaves index 0. -/
theorem State.HoldsAddress.append {s : State} (b : Byte) (hs : s.HoldsAddress) (hc : s.count.toNat < 8) :
    (s.append b).HoldsAddress := by
  obtain ⟨h1, h0⟩ := hs
  refine ⟨?_, ?_⟩
  · rw [State.append_count, count_add_one_toNat hc]
    omega
  · rwa [State.append_bufByte, if_neg (by omega)]

/-- A restart stores the new address byte at index 0 (R121). -/
theorem State.restart_append_holdsAddress (s : State) {b : Byte} (hb : framingBit b = false) :
    (s.restart.append b).HoldsAddress := by
  rw [framingBit_eq_decide, decide_eq_false_iff_not, not_le] at hb
  refine ⟨by simp, ?_⟩
  rwa [State.append_bufByte, if_pos (by simp)]

theorem feedOp_holdsAddress (b : Byte) (s t : State) (hs : s.HoldsAddress) (h : feedOp b s = .next t) :
    t.HoldsAddress := by
  rcases feedOp_next_cases h with ⟨hb, rfl⟩ | ⟨-, -, rfl⟩ | ⟨-, h1, rfl⟩ | ⟨-, hc, -, -, rfl⟩ |
    ⟨-, hc, -, -, -, rfl⟩
  · exact s.restart_append_holdsAddress hb
  · exact hs
  · exact hs.append b (by simp [h1])
  · exact hs.append b hc
  · exact (decodeOp_sameAssembly _ _).holdsAddress (hs.append b hc)

/-- Settles O50: a FEED stores after the address byte or restarts with a new one. -/
theorem addressByteStaysUntilReset : Obligations.AddressByteStaysUntilReset := by
  intro i s t hi h1 h0 h
  exact exec_keeps SameAssembly.holdsAddress feedOp_holdsAddress hi ⟨h1, h0⟩ h

/-! ### STATUS and the LAST_ registers -/

/-- The LAST_ registers are those of `s`. -/
def SameLast (s t : State) : Prop :=
  t.lastAxis = s.lastAxis ∧ t.lastFc = s.lastFc ∧ t.lastValue = s.lastValue

/-- What an instruction but RESET can leave in STATUS and the LAST_ registers: nothing new, a failure
that keeps the registers, or an accepted packet (R24 to R27, R171, R176). -/
def SessionOutcome (s t : State) : Prop :=
  (t.status = s.status ∧ SameLast s t) ∨ (t.status = .checksumFailed ∧ SameLast s t) ∨ t.status = .success

theorem decodeOp_sessionOutcome (len : Nat) (s : State) :
    SessionOutcome s ((decodeOp len s).1.raise (decodeOp len s).2) := by
  rcases decodeOp_cases len s with ⟨axis, fc, value, h⟩ | h <;> rw [h]
  · exact .inr (.inr rfl)
  · exact .inr (.inl ⟨rfl, rfl, rfl, rfl⟩)

theorem feedOp_sessionOutcome {b : Byte} {s t : State} (h : feedOp b s = .next t) : SessionOutcome s t := by
  rcases feedOp_next_cases h with ⟨-, rfl⟩ | ⟨-, -, rfl⟩ | ⟨-, -, rfl⟩ | ⟨-, -, -, -, rfl⟩ |
    ⟨-, -, -, -, -, rfl⟩
  · exact .inl ⟨rfl, rfl, rfl, rfl⟩
  · exact .inl ⟨rfl, rfl, rfl, rfl⟩
  · exact .inl ⟨rfl, rfl, rfl, rfl⟩
  · exact .inl ⟨rfl, rfl, rfl, rfl⟩
  · exact decodeOp_sessionOutcome s.dlen.toNat (s.append b)

/-- The bytes of one packet run DECODE once, at its last byte: no accepted packet is followed by a
failure within the instruction. -/
theorem receiveOp_sessionOutcome {fc : Fc} {axis : Axis} {data : List Group} {check : BitVec 7}
    {s t : State} (hg : groupsOk data = true) (h : receiveOp fc axis data check s = .next t) :
    SessionOutcome s t := by
  obtain ⟨m, c, d, hc, hd, -, hf⟩ := feedAll_packet fc axis check s hg
  have hlen := ((groupsOk_iff data).1 hg).1
  rw [receiveOp, if_pos hg, hf, decodeCall_next hc hd (by omega)] at h
  cases h
  exact decodeOp_sessionOutcome (data.length + 3) _

theorem exec_sessionOutcome {i : Instr} {s t : State} (hi : i ≠ .reset) (h : exec i s = .next t) :
    SessionOutcome s t := by
  rcases exec_cases h with ⟨hr, -⟩ | ⟨b, hb⟩ | ⟨fc, axis, data, check, hg, hr⟩ | ⟨bytes, -, rfl⟩ |
    ⟨out, rfl⟩ | ⟨-, -, rfl⟩
  · exact absurd hr hi
  · exact feedOp_sessionOutcome hb
  · exact receiveOp_sessionOutcome hg hr
  · exact .inl ⟨rfl, rfl, rfl, rfl⟩
  · exact .inl ⟨rfl, rfl, rfl, rfl⟩
  · exact decodeOp_sessionOutcome _ s

/-- Settles O51: of the three outcomes only the first can leave PENDING, and only the last changes a
LAST_ register. -/
theorem onlyResetReturnsToPending : Obligations.OnlyResetReturnsToPending := by
  intro i s t hi h
  rcases exec_sessionOutcome hi h with ⟨hst, ha, hf, hv⟩ | ⟨hst, ha, hf, hv⟩ | hst
  · exact ⟨fun hp => ⟨hst ▸ hp, ha, hf, hv⟩, by simp [ha, hf, hv]⟩
  · exact ⟨by simp [hst], by simp [ha, hf, hv]⟩
  · exact ⟨by simp [hst], fun _ => hst⟩

/-! ### The histories -/

/-- DECODE itself writes neither stream; FEED raises its event (R170, R246). -/
theorem decodeOp_streams (len : Nat) (s : State) :
    (decodeOp len s).1.tx = s.tx ∧ (decodeOp len s).1.events = s.events := by
  rcases decodeOp_cases len s with ⟨axis, fc, value, h⟩ | h <;> rw [h] <;> exact ⟨rfl, rfl⟩

theorem decodeOp_raise_events (len : Nat) (s : State) :
    s.events <+: ((decodeOp len s).1.raise (decodeOp len s).2).events := by
  rw [State.raise_events, (decodeOp_streams len s).2]
  exact List.prefix_append _ _

theorem feedOp_events {b : Byte} {s t : State} (h : feedOp b s = .next t) : s.events <+: t.events := by
  rcases feedOp_next_cases h with ⟨-, rfl⟩ | ⟨-, -, rfl⟩ | ⟨-, -, rfl⟩ | ⟨-, -, -, -, rfl⟩ |
    ⟨-, -, -, -, -, rfl⟩
  · exact List.prefix_append _ _
  · exact List.prefix_append _ _
  · exact List.prefix_append _ _
  · exact List.prefix_append _ _
  · exact decodeOp_raise_events s.dlen.toNat (s.append b)

/-- No run of FEEDs writes the TX stream or takes back an event. -/
theorem feedAll_streams {bytes : List Byte} {s t : State} (h : feedAll bytes s = .next t) :
    t.tx = s.tx ∧ s.events <+: t.events :=
  feedAll_induct (P := fun u => u.tx = s.tx ∧ s.events <+: u.events)
    (fun _ _ _ hu hv => ⟨(feedOp_frame hv).1.trans hu.1, hu.2.trans (feedOp_events hv)⟩)
    ⟨rfl, List.prefix_rfl⟩ h

/-- An instruction emits bytes and does nothing else, or it leaves the TX stream and takes back no event
(R20, R150). -/
theorem exec_streams {i : Instr} {s t : State} (h : exec i s = .next t) :
    (∃ bytes, t = s.transmit bytes) ∨ (t.tx = s.tx ∧ s.events <+: t.events) := by
  rcases exec_cases h with ⟨-, rfl⟩ | ⟨b, hb⟩ | ⟨fc, axis, data, check, hg, hr⟩ | ⟨bytes, -, rfl⟩ |
    ⟨out, rfl⟩ | ⟨-, -, rfl⟩
  · exact .inr ⟨rfl, List.prefix_rfl⟩
  · exact .inr ⟨(feedOp_frame hb).1, feedOp_events hb⟩
  · rw [receiveOp, if_pos hg] at hr
    exact .inr (feedAll_streams hr)
  · exact .inl ⟨bytes, rfl⟩
  · exact .inr ⟨rfl, List.prefix_rfl⟩
  · exact .inr ⟨(decodeOp_streams _ s).1, decodeOp_raise_events _ s⟩

/-- Settles O52: emitting appends to the TX stream, and raising to the event stream. -/
theorem historiesOnlyGrow : Obligations.HistoriesOnlyGrow := by
  intro i s t h
  rcases exec_streams h with ⟨bytes, rfl⟩ | ⟨htx, hev⟩
  · exact ⟨List.prefix_append _ _, List.prefix_rfl⟩
  · exact ⟨htx ▸ List.prefix_rfl, hev⟩

/-- Settles O53: an instruction that changes the TX stream is the emission of its bytes. -/
theorem emittingLeavesSessionState : Obligations.EmittingLeavesSessionState := by
  intro i s t h hne
  rcases exec_streams h with ⟨bytes, rfl⟩ | ⟨htx, -⟩
  · rfl
  · exact absurd htx hne

end Sys2Proof.Machine

/-! ## The family of the memory: the moves of the host, received runs, and the bytes of BUF

Stale bytes of BUF are never read because DECODE of length L reads the indices below L alone, and FEED
runs it with L = COUNT. ENCODE commutes with the receive path because FEED reads no TX stream. -/

namespace Sys2Proof.Machine

/-! ### The step, by the head of the queue -/

/-- What is left of the move stands before the later moves (D3). -/
theorem step_of_run {s : State} {r : Request} {rs : List Request} {i : Instr} {rest : Option Request}
    (hq : s.inputs = r :: rs) (hd : decode r = .run i rest) :
    step s = exec i (s.withInputs (rest.toList ++ rs)) := by
  simp only [step, takeInput, hq, hd]
  rfl

/-- With no move the block holds its state (R259). -/
theorem step_of_no_move {s : State} (hq : s.inputs = []) : step s = .next s := by
  simp only [step, takeInput, hq]

/-- A move of no pulse is taken, and nothing else happens (R70). -/
theorem step_of_idle {s : State} {r : Request} {rs : List Request} (hq : s.inputs = r :: rs)
    (hd : decode r = .idle) : step s = .next (s.withInputs rs) := by
  simp only [step, takeInput, hq, hd]

/-- Settles O42: by the head of the queue and what it decodes to. -/
theorem stepRunsTheDecodedInstruction : Obligations.StepRunsTheDecodedInstruction :=
  ⟨fun _ _ _ _ _ => step_of_run, fun _ => step_of_no_move, fun _ _ _ => step_of_idle⟩

/-! ### A received run is its FEEDs -/

theorem feedAll_singleton (b : Byte) (s : State) : feedAll [b] s = feedOp b s := by
  rw [feedAll]
  cases feedOp b s <;> rfl

/-- The statements' FEEDs of a byte sequence are the model's. -/
theorem feeds_eq_some_iff (bytes : List Byte) (s t : State) :
    Ref.feeds bytes s = some t ↔ feedAll bytes s = .next t := by
  induction bytes generalizing s with
  | nil => simp [Ref.feeds, feedAll]
  | cons b bytes ih =>
    have he : exec (.feed b) s = feedOp b s := rfl
    rw [Ref.feeds, feedAll, he]
    cases feedOp b s with
    | next u => exact ih u
    | fault f => exact nomatch f
    | refused r => simp

theorem restRx_eq (left : List Byte) : restRx left = if left = [] then none else some (.rx left) := by
  cases left <;> rfl

/-- Settles O41: a run starts with a packet, whose row feeds the packet's bytes, or with a FEED. -/
theorem receivedRunIsItsFeeds : Obligations.ReceivedRunIsItsFeeds := by
  intro bytes i rest h
  rcases decodeRx_cases h with ⟨fc, axis, data, check, left, hg, rfl, hbytes, hrest⟩ |
    ⟨b, left, rfl, hbytes, hrest⟩
  · refine ⟨packetBytes fc axis data check, left, hbytes, by simp [packetBytes],
      hrest.trans (restRx_eq left), fun s t => ?_⟩
    rw [exec_received, receiveOp, if_pos hg, feeds_eq_some_iff]
  · refine ⟨[b], left, hbytes, by simp, hrest.trans (restRx_eq left), fun s t => ?_⟩
    rw [feeds_eq_some_iff, feedAll_singleton]
    rfl

/-! ### ENCODE and the receive path -/

/-- DECODE reads BUF, so bytes handed to the sink before it change neither its effect nor its event. -/
theorem decodeOp_transmit (len : Nat) (bytes : List Byte) (s : State) :
    decodeOp len (s.transmit bytes) = ((decodeOp len s).1.transmit bytes, (decodeOp len s).2) := by
  rcases decodeOp_congr (s := s) (t := s.transmit bytes) (State.transmit_bufByte s bytes) len with
    ⟨axis, fc, value, hs, ht⟩ | ⟨hs, ht⟩ <;> rw [hs, ht] <;> rfl

theorem State.transmit_append (s : State) (bytes : List Byte) (b : Byte) :
    (s.transmit bytes).append b = (s.append b).transmit bytes := rfl

/-- FEED reads no TX stream: it does the same after bytes have been handed to the sink (R52). -/
theorem feedOp_transmit {b : Byte} {s t : State} (bytes : List Byte) (h : feedOp b s = .next t) :
    feedOp b (s.transmit bytes) = .next (t.transmit bytes) := by
  rcases feedOp_next_cases h with ⟨hb, rfl⟩ | ⟨hb, hc, rfl⟩ | ⟨hb, h1, rfl⟩ | ⟨hb, hc, h1, hd, rfl⟩ |
    ⟨hb, hc, h1, hd, hl, rfl⟩
  · exact feedOp_address hb _
  · exact feedOp_full hb hc
  · exact feedOp_control hb h1
  · exact feedOp_store hb hc h1 hd
  · rw [feedOp_decode (s := s.transmit bytes) hb hc h1 hd hl, State.transmit_dlen, State.transmit_append,
      decodeOp_transmit]
    rfl

/-- Settles O48: ENCODE only hands bytes to the sink; neither RESET nor FEED reads what was sent. -/
theorem encodeCommutesWithReceivePath : Obligations.EncodeCommutesWithReceivePath := by
  rintro s t fc axis arg i (rfl | ⟨b, rfl⟩) h
  · cases h
    exact ⟨_, _, rfl, rfl, rfl⟩
  · exact ⟨_, _, rfl, feedOp_transmit (encodePacket fc axis arg) h, rfl⟩

/-! ### What DECODE reads of BUF -/

theorem State.bufBytes_congr_below {s t : State} {n : Nat} (h : ∀ i < n, t.bufByte i = s.bufByte i)
    {i k : Nat} (hik : i + k ≤ n) : t.bufBytes i k = s.bufBytes i k := by
  refine List.map_congr_left fun j hj => h j ?_
  rw [List.mem_range'_1] at hj
  omega

/-- DECODE of length `len` reads the first `len` bytes of BUF and nothing else (R170, R180). -/
theorem decodeOp_congr_below {s t : State} {len : Nat} (hl : 4 ≤ len)
    (h : ∀ i < len, t.bufByte i = s.bufByte i) :
    (∃ axis fc value, decodeOp len s = (s.record axis fc value, reportOf axis fc value) ∧
      decodeOp len t = (t.record axis fc value, reportOf axis fc value)) ∨
    (decodeOp len s = (s.recordFailure, .csfail) ∧ decodeOp len t = (t.recordFailure, .csfail)) := by
  unfold decodeOp
  rw [State.bufBytes_congr_below h (by omega : 0 + (len - 1) ≤ len),
    State.bufBytes_congr_below h (by omega : 3 + (len - 4) ≤ len),
    h 0 (by omega), h 1 (by omega), h 2 (by omega), h (len - 1) (by omega)]
  split
  · exact .inl ⟨_, _, _, rfl, rfl⟩
  · exact .inr ⟨rfl, rfl⟩

end Sys2Proof.Machine

/-! ### Agreement below COUNT -/

namespace Sys2Proof.Ref

open Sys2Proof.Machine

/-- The bytes below COUNT are written, so they are read from BUF and not from the free draws. -/
theorem AgreeBelowCount.bufByte {s t : State} (h : AgreeBelowCount s t) (hs : s.Inv) {i : Nat}
    (hi : i < s.count.toNat) : t.bufByte i = s.bufByte i := by
  obtain ⟨-, -, -, -, -, -, -, -, -, -, hbuf⟩ := h
  obtain ⟨-, -, -, hwritten, -, -⟩ := hs
  obtain ⟨b, hb⟩ := Option.isSome_iff_exists.1 (hwritten i hi)
  rw [State.bufByte_of_get? hb, State.bufByte_of_get? ((hbuf i hi).symm.trans hb)]

/-- With COUNT at 0 no byte of BUF is left to agree on. -/
theorem AgreeBelowCount.restart {s t : State} (h : AgreeBelowCount s t) :
    AgreeBelowCount s.restart t.restart := by
  obtain ⟨-, -, hst, ha, hf, hv, htx, hev, hu, hin, -⟩ := h
  exact ⟨rfl, rfl, hst, ha, hf, hv, htx, hev, hu, hin, by simp⟩

theorem AgreeBelowCount.append {s t : State} (b : Byte) (h : AgreeBelowCount s t)
    (hc : s.count.toNat < 8) : AgreeBelowCount (s.append b) (t.append b) := by
  obtain ⟨hcount, hd, hst, ha, hf, hv, htx, hev, hu, hin, hbuf⟩ := h
  refine ⟨congrArg (· + 1) hcount, hd, hst, ha, hf, hv, htx, hev, hu, hin, fun i hi => ?_⟩
  rw [State.append_count, count_add_one_toNat hc] at hi
  rw [State.append_buf, State.append_buf, Memory.get?_set, Memory.get?_set, ← hcount]
  split
  · rfl
  · exact hbuf i (by omega)

theorem AgreeBelowCount.declare {s t : State} (len : BitVec 3) (h : AgreeBelowCount s t) :
    AgreeBelowCount (s.declare len) (t.declare len) := by
  obtain ⟨hcount, -, hrest⟩ := h
  exact ⟨hcount, rfl, hrest⟩

theorem AgreeBelowCount.raise {s t : State} (e : Event) (h : AgreeBelowCount s t) :
    AgreeBelowCount (s.raise e) (t.raise e) := by
  obtain ⟨hcount, hd, hst, ha, hf, hv, htx, hev, hrest⟩ := h
  exact ⟨hcount, hd, hst, ha, hf, hv, htx, congrArg (· ++ [e]) hev, hrest⟩

theorem AgreeBelowCount.record {s t : State} (axis : Axis) (fc : Fc) (value : Value)
    (h : AgreeBelowCount s t) : AgreeBelowCount (s.record axis fc value) (t.record axis fc value) := by
  obtain ⟨hcount, hd, -, -, -, -, hrest⟩ := h
  exact ⟨hcount, hd, rfl, rfl, rfl, rfl, hrest⟩

theorem AgreeBelowCount.recordFailure {s t : State} (h : AgreeBelowCount s t) :
    AgreeBelowCount s.recordFailure t.recordFailure := by
  obtain ⟨hcount, hd, -, hrest⟩ := h
  exact ⟨hcount, hd, rfl, hrest⟩

/-- DECODE at the length COUNT, with the raising of its event. -/
theorem AgreeBelowCount.decodeOp_raise {s t : State} (h : AgreeBelowCount s t) (hs : s.Inv) {len : Nat}
    (hl : 4 ≤ len) (hc : s.count.toNat = len) :
    AgreeBelowCount ((decodeOp len s).1.raise (decodeOp len s).2)
      ((decodeOp len t).1.raise (decodeOp len t).2) := by
  rcases decodeOp_congr_below hl fun i hi => h.bufByte hs (hc ▸ hi) with
    ⟨axis, fc, value, hds, hdt⟩ | ⟨hds, hdt⟩ <;> rw [hds, hdt]
  · exact (h.record axis fc value).raise _
  · exact h.recordFailure.raise _

end Sys2Proof.Ref

namespace Sys2Proof.Machine

/-- A declared length is legal: DLEN leaves 0 only for 4 plus a length code (R23). -/
theorem State.Inv.four_le_dlen {s : State} (hs : s.Inv) (hd : s.dlen ≠ 0) : 4 ≤ s.dlen.toNat := by
  obtain ⟨-, hzero, hdecl, -, -, -⟩ := hs
  have h2 : ¬ s.count.toNat < 2 := fun h => hd (hzero.2 h)
  have := hdecl (by omega)
  omega

/-- Settles O49: each case of a FEED is decided by COUNT, DLEN and the byte, and what it does keeps the
agreement; only DECODE reads BUF, below the COUNT it is run at. -/
theorem staleBytesAreNeverRead : Obligations.StaleBytesAreNeverRead := by
  intro s t b hs _ h
  have ⟨hcount, hdlen, _⟩ := h
  show ∃ s' t', feedOp b s = .next s' ∧ feedOp b t = .next t' ∧ Ref.AgreeBelowCount s' t'
  rcases feedOp_cases b s with ⟨hb, es⟩ | ⟨hb, hc, es⟩ | ⟨hb, h1, es⟩ | ⟨hb, hc, h1, hd, es⟩ |
    ⟨hb, hc, h1, hd, hl, es⟩ | ⟨-, -, -, hd, hl, -⟩
  · exact ⟨_, _, es, feedOp_address hb t, (h.restart.append b (by simp)).raise _⟩
  · exact ⟨_, _, es, feedOp_full hb (hcount ▸ hc), h.raise _⟩
  · exact ⟨_, _, es, feedOp_control hb (hcount ▸ h1), ((h.append b (by simp [h1])).declare _).raise _⟩
  · exact ⟨_, _, es, feedOp_store hb (hcount ▸ hc) (hcount ▸ h1) (hcount ▸ hdlen ▸ hd),
      (h.append b hc).raise _⟩
  · have ht := feedOp_decode (s := t) hb (hcount ▸ hc) (hcount ▸ h1) (hcount ▸ hdlen ▸ hd) (hdlen ▸ hl)
    rw [← hdlen] at ht
    exact ⟨_, _, es, ht, (h.append b hc).decodeOp_raise (hs.append hb hc h1) hl
      (by rw [State.append_count, count_add_one_toNat hc, hd])⟩
  · have := hs.four_le_dlen (by rintro h0; simp [h0] at hd)
    omega

end Sys2Proof.Machine

/-! ## The family of the encoding: the packet's fields as integers, and the moves both ways

The groups of a packet are read and written as digits base 128 (R43, R68, R69): `lowGroups` and
`groupNumber` are inverse to each other, for any number of groups. VLI_PACK gives the digits of its
field, the unpackers shift in digits, and so the canonical packets and the report of a received packet
are facts about digits. -/

namespace Sys2Proof.Ref

open Sys2Proof.Machine

/-! ### Digits base 128 -/

theorem foldl_groupNumber (n : Nat) (g : List Group) :
    g.foldl (fun n x => 128 * n + x.toNat) n = n * 128 ^ g.length + groupNumber g := by
  induction g generalizing n with
  | nil => simp [groupNumber]
  | cons x g ih =>
    rw [groupNumber, List.foldl_cons, List.foldl_cons, ih, ih (128 * 0 + x.toNat), List.length_cons,
      pow_succ]
    ring

theorem groupNumber_cons (x : Group) (g : List Group) :
    groupNumber (x :: g) = x.toNat * 128 ^ g.length + groupNumber g := by
  rw [groupNumber, List.foldl_cons, foldl_groupNumber, Nat.mul_zero, Nat.zero_add]

theorem groupNumber_lt (g : List Group) : groupNumber g < 128 ^ g.length := by
  induction g with
  | nil => simp [groupNumber]
  | cons x g ih =>
    have hx : x.toNat + 1 ≤ 128 := x.isLt
    calc groupNumber (x :: g) < (x.toNat + 1) * 128 ^ g.length := by
          rw [groupNumber_cons, Nat.add_mul, Nat.one_mul]; omega
      _ ≤ 128 * 128 ^ g.length := Nat.mul_le_mul_right _ hx
      _ = 128 ^ (x :: g).length := by rw [List.length_cons, pow_succ, Nat.mul_comm]

@[simp] theorem lowGroups_length (n : Nat) (v : Int) : (lowGroups n v).length = n := by
  induction n with
  | zero => rfl
  | succ n ih => simp [lowGroups, ih]

/-- The low digits of a number written with the digits `g`, whatever stands above them, are `g`. -/
theorem lowGroups_add_groupNumber (z : Int) (g : List Group) :
    lowGroups g.length (z * 128 ^ g.length + groupNumber g) = g := by
  induction g generalizing z with
  | nil => rfl
  | cons x g ih =>
    have hlt : (groupNumber g : Int) < 128 ^ g.length := by exact_mod_cast groupNumber_lt g
    have hsplit : z * 128 ^ (x :: g).length + (groupNumber (x :: g) : Int) =
        (z * 128 + x.toNat) * 128 ^ g.length + groupNumber g := by
      rw [groupNumber_cons, List.length_cons, pow_succ]; push_cast; ring
    have hdigit : BitVec.ofInt 7 (z * 128 + x.toNat) = x := by
      apply BitVec.eq_of_toNat_eq
      have := x.isLt
      rw [BitVec.toNat_ofInt]
      omega
    rw [hsplit, List.length_cons, lowGroups, ih, Int.add_comm, Int.add_mul_ediv_right _ _ (by positivity),
      Int.ediv_eq_zero_of_lt (by positivity) hlt, Int.zero_add, hdigit]

/-- The low `n` digits write the number modulo `128 ^ n`. -/
theorem groupNumber_lowGroups (n : Nat) (v : Int) :
    (groupNumber (lowGroups n v) : Int) = v % 128 ^ n := by
  induction n with
  | zero => simp [lowGroups, groupNumber]
  | succ n ih =>
    have hdigit : ((BitVec.ofInt 7 (v / 128 ^ n)).toNat : Int) = v / 128 ^ n % 128 := by
      rw [BitVec.toNat_ofInt]; omega
    have hnumber : (groupNumber (lowGroups (n + 1) v) : Int) = v / 128 ^ n % 128 * 128 ^ n + v % 128 ^ n := by
      rw [lowGroups, groupNumber_cons, lowGroups_length, Nat.cast_add, Nat.cast_mul, hdigit, ih]
      push_cast; rfl
    have hlt : (groupNumber (lowGroups (n + 1) v) : Int) < 128 ^ (n + 1) := by
      exact_mod_cast lowGroups_length (n + 1) v ▸ groupNumber_lt (lowGroups (n + 1) v)
    have hv : v = groupNumber (lowGroups (n + 1) v) + 128 ^ (n + 1) * (v / 128 ^ n / 128) := by
      rw [hnumber, pow_succ]
      linear_combination -(Int.mul_ediv_add_emod v (128 ^ n)) -
        128 ^ n * Int.mul_ediv_add_emod (v / 128 ^ n) 128
    conv_rhs => rw [hv, Int.add_mul_emod_self_left, Int.emod_eq_of_lt (by positivity) hlt]

/-! ### Signed readings -/

theorem lowGroups_signedNumber (g : List Group) : lowGroups g.length (signedNumber g) = g := by
  unfold signedNumber
  split
  · simpa using lowGroups_add_groupNumber 0 g
  · rw [show (groupNumber g : Int) - 128 ^ g.length = -1 * 128 ^ g.length + groupNumber g by ring]
    exact lowGroups_add_groupNumber (-1) g

/-- `v` lies in the range of `n` groups read as two's complement (R68). -/
def FitsGroups (n : Nat) (v : Int) : Prop := -(128 ^ n) ≤ 2 * v ∧ 2 * v < 128 ^ n

/-- The range of one or more groups has an even size. -/
theorem pow_eq_two_mul {n : Nat} (hn : 1 ≤ n) : (128 : Int) ^ n = 2 * (64 * 128 ^ (n - 1)) := by
  obtain ⟨k, rfl⟩ := Nat.exists_eq_add_of_le' hn
  rw [Nat.add_sub_cancel, pow_succ]; ring

theorem signedNumber_fits {g : List Group} (hg : 1 ≤ g.length) : FitsGroups g.length (signedNumber g) := by
  have hlt : (groupNumber g : Int) < 128 ^ g.length := by exact_mod_cast groupNumber_lt g
  have heven := pow_eq_two_mul hg
  unfold signedNumber FitsGroups
  split <;> omega

theorem signedNumber_lowGroups {n : Nat} {v : Int} (hn : 1 ≤ n) (hv : FitsGroups n v) :
    signedNumber (lowGroups n v) = v := by
  obtain ⟨hlo, hhi⟩ := hv
  have heven := pow_eq_two_mul hn
  rw [signedNumber, groupNumber_lowGroups, lowGroups_length]
  rcases lt_or_ge v 0 with hneg | hpos
  · have hmod : v % 128 ^ n = v + 128 ^ n := by
      rw [← Int.add_emod_right, Int.emod_eq_of_lt (by omega) (by omega)]
    rw [hmod, if_neg (by omega)]
    omega
  · rw [Int.emod_eq_of_lt hpos (by omega), if_pos (by omega)]

/-- Only the sign of the first group decides (R103). -/
theorem signedNumber_cons (x : Group) (g : List Group) :
    signedNumber (x :: g) = x.toInt * 128 ^ g.length + groupNumber g := by
  have hlt : (groupNumber g : Int) < 128 ^ g.length := by exact_mod_cast groupNumber_lt g
  have hn : (128 : Int) ^ (x :: g).length = 128 * 128 ^ g.length := by
    rw [List.length_cons, pow_succ, mul_comm]
  have hx := x.isLt
  rw [signedNumber, groupNumber_cons, hn, BitVec.toInt_eq_toNat_cond]
  push_cast
  have hpos : (0 : Int) < 128 ^ g.length := by positivity
  have hnn : (0 : Int) ≤ groupNumber g := by positivity
  generalize (128 : Int) ^ g.length = m at *
  by_cases hs : x.toNat < 64
  · have : (x.toNat : Int) * m ≤ 63 * m := by gcongr; omega
    rw [if_pos (by omega), if_pos (by omega)]
  · have : (64 : Int) * m ≤ x.toNat * m := by gcongr; omega
    rw [if_neg (by omega), if_neg (by omega)]
    ring

/-! ### The least number of groups (R102) -/

theorem groupsNeeded_bounds (v : Int) : 1 ≤ groupsNeeded v ∧ groupsNeeded v ≤ 4 := by
  unfold groupsNeeded; split_ifs <;> decide

theorem fits_groupsNeeded {v : Int} (hv : FitsGroups 4 v) : FitsGroups (groupsNeeded v) v := by
  unfold groupsNeeded
  unfold FitsGroups at *
  split_ifs <;> norm_num at * <;> omega

/-- A wider range holds the numbers of a narrower one. -/
theorem FitsGroups.mono {m n : Nat} {v : Int} (h : FitsGroups m v) (hmn : m ≤ n) : FitsGroups n v := by
  have hpow : (128 : Int) ^ m ≤ 128 ^ n := pow_le_pow_right₀ (by norm_num) hmn
  unfold FitsGroups at *
  omega

/-! ### The packet by arithmetic is the packet by bits -/

theorem bodyOf_eq_packetBody {data : List Group} (h1 : 1 ≤ data.length) (h4 : data.length ≤ 4) (fc : Fc)
    (axis : Axis) : bodyOf fc.toNat axis.toNat data = packetBody fc axis data := by
  rw [bodyOf, packetBody, addressByte_eq_ofNat, controlByte_eq_ofNat, lengthCodeOf_toNat h1 h4,
    funext dataByte_eq_ofNat]

/-- The comparison of CHK_VERIFY, by the sum in the integers (R90, R92). -/
theorem low7_sum8_eq_iff (p : List Byte) (c : BitVec 7) :
    low7 (sum8 p) = c ↔ byteSum p % 128 = c.toNat := by
  rw [← BitVec.toNat_inj, low7_toNat, sum8_toNat, byteSum]
  omega

theorem chkGen_eq_byteSum (p : List Byte) : chkGen p = BitVec.ofNat 8 (128 + byteSum p % 128) := by
  rw [chkGen_eq_ofNat, sum8_toNat, byteSum, Nat.mod_mod_of_dvd _ (by decide)]

end Sys2Proof.Ref

namespace Sys2Proof.Machine

open Sys2Proof.Ref

/-! ### The integer unit on digits -/

/-- Shifting in a group is multiplying by 128 and adding, for every integer modulo 2^32. -/
theorem shiftIn_ofInt (z : Int) (g : Group) :
    shiftIn (BitVec.ofInt 32 z) g = BitVec.ofInt 32 (z * 128 + g.toNat) := by
  apply BitVec.eq_of_toNat_eq
  have := g.isLt
  rw [shiftIn_toNat, BitVec.toNat_ofInt, BitVec.toNat_ofInt]
  omega

theorem foldl_shiftIn_ofInt (z : Int) (g : List Group) :
    g.foldl shiftIn (BitVec.ofInt 32 z) = BitVec.ofInt 32 (z * 128 ^ g.length + groupNumber g) := by
  induction g generalizing z with
  | nil => simp [groupNumber]
  | cons x g ih =>
    rw [List.foldl_cons, shiftIn_ofInt, ih, groupNumber_cons, List.length_cons, pow_succ]
    congr 1
    push_cast
    ring

/-- VLI_UNPACK_S reads its groups as two's complement, modulo 2^32 (R103). -/
theorem vliUnpackS_eq_ofInt (g : Group) (rest : List Group) :
    vliUnpackS g rest = BitVec.ofInt 32 (signedNumber (g :: rest)) := by
  rw [vliUnpackS, BitVec.signExtend, foldl_shiftIn_ofInt, signedNumber_cons]

/-- VLI_UNPACK_U reads its groups as an unsigned number, modulo 2^32 (R104). -/
theorem vliUnpackU_eq_ofNat (g : Group) (rest : List Group) :
    vliUnpackU g rest = BitVec.ofNat 32 (groupNumber (g :: rest)) := by
  have hg : g.setWidth 32 = BitVec.ofInt 32 (g.toNat : Int) := by
    rw [BitVec.ofInt_natCast, BitVec.ofNat_toNat]
  rw [vliUnpackU, hg, foldl_shiftIn_ofInt, groupNumber_cons, ← BitVec.ofInt_natCast]
  push_cast
  rfl

theorem decodeValue_eq_valueOf (fc : Fc) (g : Group) (rest : List Group) :
    decodeValue fc g rest = valueOf fc (g :: rest) := by
  rw [decodeValue, valueOf, vliUnpackS_eq_ofInt, vliUnpackU_eq_ofNat]

/-- The four groups of a field are its four low digits (R100). -/
theorem splitGroups_eq_lowGroups (a : ArgField) : splitGroups a = lowGroups 4 a.toInt := by
  have hdigit : ∀ (k : Nat) (g : Group), (g.toNat : Int) = a.toInt / 128 ^ k % 128 →
      g = BitVec.ofInt 7 (a.toInt / 128 ^ k) := by
    intro k g hg
    apply BitVec.eq_of_toNat_eq
    rw [BitVec.toNat_ofInt]
    omega
  have hv := argField_toInt a
  have h3 : a.extractLsb' 21 7 = _ := hdigit 3 _ (by rw [group_toNat_three]; split at hv <;> omega)
  have h2 : a.extractLsb' 14 7 = _ := hdigit 2 _ (by rw [group_toNat_two]; split at hv <;> omega)
  have h1 : a.extractLsb' 7 7 = _ := hdigit 1 _ (by rw [group_toNat_one]; split at hv <;> omega)
  have h0 : a.extractLsb' 0 7 = _ := hdigit 0 _ (by rw [group_toNat_zero]; split at hv <;> omega)
  rw [splitGroups, h3, h2, h1, h0]
  rfl

/-- VLI_PACK gives the low digits of its field, the least number that hold it (R101, R102). -/
theorem vliPack_eq_lowGroups (a : ArgField) :
    vliPack a = lowGroups (groupsNeeded a.toInt) a.toInt := by
  have h4 := splitGroups_eq_lowGroups a
  have h3 := congrArg List.tail h4
  have h2 := congrArg List.tail h3
  have h1 := congrArg List.tail h2
  unfold groupsNeeded
  rcases vliPack_cases a with ⟨hp, hv⟩ | ⟨hp, hlo, hhi, hv⟩ | ⟨hp, hlo, hhi, hv⟩ | ⟨hp, hlo, hhi⟩
  · rw [hp, if_neg (by omega), if_neg (by omega), if_neg (by omega)]
    exact h4
  · rw [hp, if_neg (by omega), if_neg (by omega), if_pos (by omega)]
    exact h3
  · rw [hp, if_neg (by omega), if_pos (by omega)]
    exact h2
  · rw [hp, if_pos (by omega)]
    exact h1

theorem argField_fits (a : ArgField) : FitsGroups 4 a.toInt := by
  have := a.isLt
  rw [FitsGroups, argField_toInt]
  split <;> omega

/-- A field is what its packed groups read as (R105). -/
theorem signedNumber_vliPack (a : ArgField) : signedNumber (vliPack a) = a.toInt := by
  rw [vliPack_eq_lowGroups]
  exact signedNumber_lowGroups (groupsNeeded_bounds _).1 (fits_groupsNeeded (argField_fits a))

/-- The groups of a field are as few as its value needs (R102). -/
theorem groupsNeeded_signedNumber_vliPack (a : ArgField) :
    groupsNeeded (signedNumber (vliPack a)) = (vliPack a).length := by
  rw [signedNumber_vliPack, vliPack_eq_lowGroups, lowGroups_length]

/-- One to four groups, as few as their value needs, are the packed form of that value. -/
theorem vliPack_ofInt_signedNumber {g : List Group} (h1 : 1 ≤ g.length) (h4 : g.length ≤ 4)
    (hmin : groupsNeeded (signedNumber g) = g.length) :
    vliPack (BitVec.ofInt 28 (signedNumber g)) = g := by
  obtain ⟨hlo, hhi⟩ := (signedNumber_fits h1).mono h4
  have hv : (BitVec.ofInt 28 (signedNumber g)).toInt = signedNumber g :=
    BitVec.toInt_ofInt_eq_self (by decide) (by omega) (by omega)
  rw [vliPack_eq_lowGroups, hv, hmin, lowGroups_signedNumber]

/-! ### ENCODE and the canonical packets -/

/-- The body ENCODE emits is a packet's body, for the axis without its bit 7 (R150, R154). -/
theorem encodeBody_eq_packetBody (fc : Fc) (axis : Byte) (arg : Value) :
    encodeBody fc axis arg = packetBody fc (low7 axis) (vliPack (arg.setWidth 28)) := by
  rw [encodeBody, packetBody, show axis &&& 0x7F = addressByte (low7 axis) by revert axis; decide]

theorem encodePacket_eq (fc : Fc) (axis : Byte) (arg : Value) :
    encodePacket fc axis arg = packetBody fc (low7 axis) (vliPack (arg.setWidth 28)) ++
      [chkGen (packetBody fc (low7 axis) (vliPack (arg.setWidth 28)))] := by
  rw [encodePacket, encodeBody_eq_packetBody]

/-- An ENCODE appends `p` in every state exactly when `p` is its packet. -/
theorem exec_encode_appends_iff (fc : Fc) (axis : Byte) (arg : Value) (p : List Byte) :
    (∀ s : State, exec (.encode fc axis arg) s = .next { s with tx := s.tx ++ p }) ↔
      p = encodePacket fc axis arg := by
  refine ⟨fun h => ?_, fun h s => h ▸ rfl⟩
  have h0 := h State.reset
  simp only [exec, execEncode, Host.Outcome.next.injEq] at h0
  exact (congrArg State.tx h0).symm

/-- R75 by fields: a canonical packet is a body of one to four groups, as few as their value needs, with
the checksum CHK_GEN gives. -/
theorem canonical_iff (p : List Byte) : Canonical p ↔
    ∃ fc axis data, 1 ≤ data.length ∧ data.length ≤ 4 ∧
      groupsNeeded (signedNumber data) = data.length ∧
      p = packetBody fc axis data ++ [chkGen (packetBody fc axis data)] := by
  constructor
  · rintro ⟨a, c, bytes, k, rfl, h1, h4, ha, hc, hbytes, hlc, hk, hmin⟩
    have hdata : (bytes.map low7).map dataByte = bytes := by
      rw [List.map_map]
      exact (List.map_congr_left fun d hd => dataByte_low7 (framingBit_of_ge (hbytes d hd))).trans
        (List.map_id _)
    have hcode : lengthCodeOf bytes.length = controlLc c := by
      apply BitVec.eq_of_toNat_eq
      rw [lengthCodeOf_toNat h1 h4, controlLc_toNat, hlc]
    have hbody : packetBody (controlFc c) (low7 a) (bytes.map low7) = a :: c :: bytes := by
      rw [packetBody, hdata, List.length_map, hcode, addressByte_low7 (framingBit_of_lt ha),
        controlByte_fields (framingBit_of_ge hc)]
    have hcheck : chkGen (a :: c :: bytes) = k := by
      rw [chkGen_eq_byteSum, ← hk, BitVec.ofNat_toNat, BitVec.setWidth_eq]
    refine ⟨controlFc c, low7 a, bytes.map low7, ?_, ?_, ?_, ?_⟩
    · rwa [List.length_map]
    · rwa [List.length_map]
    · rw [List.length_map]
      exact hmin
    · rw [hbody, hcheck]
      rfl
  · rintro ⟨fc, axis, data, h1, h4, hmin, rfl⟩
    have hdata : (data.map dataByte).map (BitVec.setWidth 7) = data := by
      rw [List.map_map]
      exact (List.map_congr_left fun g _ => low7_dataByte g).trans (List.map_id _)
    refine ⟨addressByte axis, controlByte (lengthCodeOf data.length) fc, data.map dataByte,
      chkGen (packetBody fc axis data), rfl, ?_, ?_, ?_, ?_, ?_, ?_, ?_, ?_⟩
    · rwa [List.length_map]
    · rwa [List.length_map]
    · simpa [framingBit_eq_decide] using framingBit_addressByte axis
    · simpa [framingBit_eq_decide] using framingBit_controlByte (lengthCodeOf data.length) fc
    · intro d hd
      obtain ⟨g, -, rfl⟩ := List.mem_map.1 hd
      simpa [framingBit_eq_decide] using framingBit_dataByte g
    · rw [← controlLc_toNat, controlLc_controlByte, lengthCodeOf_toNat h1 h4, List.length_map]
    · rw [chkGen_eq_byteSum, BitVec.toNat_ofNat, packetBody]
      omega
    · rwa [hdata, List.length_map]

/-- Settles O17: the groups ENCODE packs are as few as their value needs, and any such groups are the
packed form of the value they read as. -/
theorem canonicalPacketsAreTheEncodes : Obligations.CanonicalPacketsAreTheEncodes := by
  intro p
  simp only [exec_encode_appends_iff, canonical_iff, encodePacket_eq]
  constructor
  · rintro ⟨fc, axis, data, h1, h4, hmin, hp⟩
    have hfield : ((BitVec.ofInt 28 (signedNumber data)).setWidth 32).setWidth 28 =
        BitVec.ofInt 28 (signedNumber data) := by
      rw [BitVec.setWidth_setWidth_of_le _ (by decide), BitVec.setWidth_eq]
    refine ⟨fc, addressByte axis, (BitVec.ofInt 28 (signedNumber data)).setWidth 32, ?_⟩
    rw [hfield, vliPack_ofInt_signedNumber h1 h4 hmin, low7_addressByte]
    exact hp
  · rintro ⟨fc, axis, arg, hp⟩
    obtain ⟨h1, h4⟩ := vliPack_length (arg.setWidth 28)
    exact ⟨fc, low7 axis, vliPack (arg.setWidth 28), h1, h4, groupsNeeded_signedNumber_vliPack _, hp⟩

end Sys2Proof.Machine

/-! ### The moves of the function-code rows -/

namespace Sys2Proof

/-- A whole packet decodes to its row, with nothing left (R60, R66). -/
theorem decode_packetBytes {data : List Group} (h : groupsOk data = true) (fc : Fc) (axis : Axis)
    (check : BitVec 7) :
    decode (.rx (packetBytes fc axis data check)) = .run (.received fc axis data check) none := by
  rw [← List.append_nil (packetBytes fc axis data check)]
  exact decodeRx_packetBytes h fc axis check []

/-- A command whose operand fits decodes to its row (R201). -/
theorem decode_command {fc : Fc} {operand : Value} (h : operand.toNat < 2 ^ operandBits fc) (axis : Axis) :
    decode (.command fc axis operand) = .run (.commanded fc axis operand) none :=
  if_pos h

/-- The move of a function-code row decodes to the row of its function code in the table of R66, when
the words of its operands fit and come back as those operands. -/
theorem decode_encodeForm {α : Type} {fc : Fc} {toWord : α → Value} {form : PktForm α}
    {row : PktForm α → Instr} (hw : form.wellFormed = true)
    (hfit : ∀ x, (toWord x).toNat < 2 ^ operandBits fc)
    (hsend : ∀ axis x, .commanded fc axis (toWord x) = row (.send axis x))
    (hrecv : ∀ axis data check, .received fc axis data check = row (.recv axis data check)) :
    decode (encodeForm fc toWord form) = .run (row form) none := by
  cases form with
  | send axis x => rw [encodeForm, decode_command (hfit x), hsend]
  | recv axis data check => rw [encodeForm, decode_packetBytes hw, hrecv]

theorem setWidth_byte_lt (x : Byte) : (x.setWidth 32 : Value).toNat < 2 ^ 8 := by
  rw [BitVec.toNat_setWidth]
  exact (Nat.mod_le _ _).trans_lt x.isLt

theorem setWidth_byte_setWidth (x : Byte) : (x.setWidth 32 : Value).setWidth 8 = x := by
  rw [BitVec.setWidth_setWidth_of_le _ (by decide), BitVec.setWidth_eq]

/-- A row with an 8-bit operand: its byte is zero-extended into the word and cut out of it again. -/
theorem decode_encodeForm_byte {fc : Fc} {form : PktForm Byte} {row : PktForm Byte → Instr}
    (hbits : operandBits fc = 8) (hw : form.wellFormed = true)
    (hsend : ∀ axis operand, .commanded fc axis operand = row (.send axis (operand.setWidth 8)))
    (hrecv : ∀ axis data check, .received fc axis data check = row (.recv axis data check)) :
    decode (encodeForm fc (fun x => x.setWidth 32) form) = .run (row form) none := by
  refine decode_encodeForm hw (fun x => ?_) (fun axis x => ?_) hrecv
  · rw [hbits]
    exact setWidth_byte_lt x
  · rw [hsend, setWidth_byte_setWidth]

/-- A row with a 32-bit operand: every word fits, and is the operand. -/
theorem decode_encodeForm_word {fc : Fc} {form : PktForm Value} {row : PktForm Value → Instr}
    (hbits : operandBits fc = 32) (hw : form.wellFormed = true)
    (hsend : ∀ axis operand, .commanded fc axis operand = row (.send axis operand))
    (hrecv : ∀ axis data check, .received fc axis data check = row (.recv axis data check)) :
    decode (encodeForm fc id form) = .run (row form) none :=
  decode_encodeForm hw (fun x => hbits.symm ▸ x.isLt) hsend hrecv

/-- Settles O37: a row's move is its packet's bytes or its command, and its function code finds the row
in the table of R66; the pulses are decoded one by one. -/
theorem decodeOfEncodeIsTheInstruction : Obligations.DecodeOfEncodeIsTheInstruction := by
  intro i r hw h
  cases i
  case resetOrigin form =>
    cases h
    exact decode_encodeForm (row := .resetOrigin) hw (fun _ => by decide) (fun _ _ => rfl) fun _ _ _ => rfl
  case setConfig form =>
    cases h
    exact decode_encodeForm_byte (row := .setConfig) rfl hw (fun _ _ => rfl) fun _ _ _ => rfl
  case paramRead form =>
    cases h
    exact decode_encodeForm_byte (row := .paramRead) rfl hw (fun _ _ => rfl) fun _ _ _ => rfl
  case reset => cases h; rfl
  case feed b => cases h; rfl
  case encode fc axis arg => cases h; rfl
  case decode | chkGen | chkVerify | vliPack | vliUnpackS | vliUnpackU | clamp => cases h
  all_goals
    cases h
    exact decode_encodeForm_word rfl hw (fun _ _ => rfl) fun _ _ _ => rfl

/-- Settles O38: `encode` is `none` in the arms of the seven units alone. -/
theorem exactlyTheUnitsHaveNoEncoding : Obligations.ExactlyTheUnitsHaveNoEncoding := by
  intro i
  cases i <;> simp [encode, Ref.isUnit]

/-! ### The table of function codes -/

/-- A list of received rows that agrees with the table of R66 row by row. -/
theorem eq_received_of_mem {rows : List (Fc × (Axis → List Group → BitVec 7 → Instr))}
    (hrows : rows.map (fun row => (row.1, Instr.received row.1)) = rows)
    {row : Fc × (Axis → List Group → BitVec 7 → Instr)} (hrow : row ∈ rows) :
    row.2 = Instr.received row.1 :=
  (congrArg Prod.snd (List.map_inj_left.1 (hrows.trans (List.map_id rows).symm) row hrow)).symm

/-- No command has the code of the position report (R66, R175). -/
theorem namedReceived_ne_position : ∀ row ∈ Ref.namedReceived, row.1 ≠ 0x1B := by
  decide

/-- The table word of a header is the packet of zeros with that header (R70; log 6). -/
theorem tableRequest_header (fc : Fc) (axis : Axis) (lc : LengthCode) :
    tableRequest 16 (256 * axis.toNat + 128 + 32 * lc.toNat + fc.toNat) =
      some (.rx (packetBytes fc axis (List.replicate (groupCountOf lc) 0) 0)) := by
  have ha := axis.isLt
  have hl := lc.isLt
  have hf := fc.isLt
  have hcontrol : BitVec.ofNat 8 (256 * axis.toNat + 128 + 32 * lc.toNat + fc.toNat) = controlByte lc fc := by
    rw [controlByte_eq_ofNat]
    apply BitVec.eq_of_toNat_eq
    rw [BitVec.toNat_ofNat, BitVec.toNat_ofNat]
    omega
  have haddress : (256 * axis.toNat + 128 + 32 * lc.toNat + fc.toNat) / 2 ^ 8 = axis.toNat := by omega
  simp only [tableRequest, hcontrol, haddress, controlLc_controlByte, ← addressByte_eq_ofNat]
  rw [if_pos ⟨trivial, by omega⟩, packetBytes, List.length_replicate, lengthCodeOf_groupCountOf,
    List.map_replicate, List.replicate_succ']

theorem decodeTableWord_header (fc : Fc) (axis : Axis) (lc : LengthCode) :
    decodeTableWord 16 (256 * axis.toNat + 128 + 32 * lc.toNat + fc.toNat) =
      some (.received fc axis (List.replicate (groupCountOf lc) 0) 0) := by
  have hg : groupsOk (List.replicate (groupCountOf lc) 0) = true := by
    rw [groupsOk_iff, List.length_replicate]
    exact ⟨Nat.le_add_left 1 _, groupCountOf_le lc⟩
  simp only [decodeTableWord, tableRequest_header, decode_packetBytes hg, Decoded.instr]

/-- Settles O39: the word's move is a whole packet, whose row the table of R66 gives. -/
theorem everyHeaderDecodesToItsRow : Obligations.EveryHeaderDecodesToItsRow := by
  intro row hrow axis lc
  rw [decodeTableWord_header, eq_received_of_mem rfl hrow, groupCountOf]

/-- Settles O40: each move is evaluated by the decoder. -/
theorem writtenOutMovesDecode : Obligations.WrittenOutMovesDecode :=
  ⟨rfl, rfl, rfl, rfl, rfl, rfl, rfl, rfl⟩

end Sys2Proof

namespace Sys2Proof.Machine

open Sys2Proof.Ref

/-! ### The arrival of a packet -/

/-- A packet received in any state leaves what R120 and R170 say of its arrival. -/
theorem receiveOp_arrives (fc : Fc) (axis : Axis) {data : List Group} (check : BitVec 7) (s : State)
    (h1 : 1 ≤ data.length) (h4 : data.length ≤ 4) :
    ∃ t, receiveOp fc axis data check s = .next t ∧ Arrives fc axis data check s t := by
  have hg : groupsOk data = true := (groupsOk_iff data).2 ⟨h1, h4⟩
  obtain ⟨m, c, d, hc, hd, hm, hfeed⟩ := feedAll_packet fc axis check s hg
  rw [receiveOp, if_pos hg, hfeed, decodeCall_next hc hd (by omega)]
  refine ⟨_, rfl, ?_⟩
  obtain ⟨g, rest, rfl⟩ := List.exists_cons_of_length_pos h1
  have hwire : bodyOf fc.toNat axis.toNat (g :: rest) ++ [BitVec.ofNat 8 (128 + check.toNat)] =
      packetBytes fc axis (g :: rest) check := by
    rw [bodyOf_eq_packetBody h1 h4, packetBytes_eq, dataByte_eq_ofNat]
  have hdecode := decodeOp_packet (fc := fc) (axis := axis) (g := g) (rest := rest) (check := check)
    (s := { s with
      count := c, dlen := d, buf := m
      events := s.events ++ List.replicate ((g :: rest).length + 2) .none })
    fun i hi => (hm i).trans (if_pos hi)
  simp only [low7_sum8_eq_iff, decodeValue_eq_valueOf, ← bodyOf_eq_packetBody h1 h4] at hdecode
  rw [show (g :: rest).length + 3 = rest.length + 4 from rfl, hdecode]
  unfold Arrives
  simp only [hwire]
  by_cases hpass : byteSum (bodyOf fc.toNat axis.toNat (g :: rest)) % 128 = check.toNat
  · simp only [if_pos hpass]
    exact ⟨hc, hd, hm, rfl, rfl, rfl, rfl, rfl, rfl, rfl, rfl, rfl⟩
  · simp only [if_neg hpass]
    exact ⟨hc, hd, hm, rfl, rfl, rfl, rfl, rfl, rfl, rfl, rfl, rfl⟩

/-- Settles O35: a received row feeds its packet, and none of the ten codes is the position's. -/
theorem commandCodesReceivedAreGeneric : Obligations.CommandCodesReceivedAreGeneric := by
  intro row hrow axis data check s h1 h4
  rw [eq_received_of_mem (rows := namedReceived) rfl hrow, exec_received]
  obtain ⟨t, ht, harrives⟩ := receiveOp_arrives row.1 axis check s h1 h4
  exact ⟨t, ht, harrives, fun v => if_neg (namedReceived_ne_position row hrow)⟩

/-! ### Pulses that arrive together -/

/-- The queue of moves is not read by DECODE. -/
theorem decodeOp_withInputs (len : Nat) (rs : List Request) (s : State) :
    decodeOp len (s.withInputs rs) = ((decodeOp len s).1.withInputs rs, (decodeOp len s).2) := by
  rcases decodeOp_congr (s := s) (t := s.withInputs rs) (State.withInputs_bufByte s rs) len with
    ⟨axis, fc, value, hs, ht⟩ | ⟨hs, ht⟩ <;> rw [hs, ht] <;> rfl

theorem State.withInputs_append (s : State) (rs : List Request) (b : Byte) :
    (s.withInputs rs).append b = (s.append b).withInputs rs := rfl

/-- FEED does not read the queue of moves. -/
theorem feedOp_withInputs {b : Byte} {s t : State} (rs : List Request) (h : feedOp b s = .next t) :
    feedOp b (s.withInputs rs) = .next (t.withInputs rs) := by
  rcases feedOp_next_cases h with ⟨hb, rfl⟩ | ⟨hb, hc, rfl⟩ | ⟨hb, h1, rfl⟩ | ⟨hb, hc, h1, hd, rfl⟩ |
    ⟨hb, hc, h1, hd, hl, rfl⟩
  · exact feedOp_address hb _
  · exact feedOp_full hb hc
  · exact feedOp_control hb h1
  · exact feedOp_store hb hc h1 hd
  · rw [feedOp_decode (s := s.withInputs rs) hb hc h1 hd hl, State.withInputs_dlen,
      State.withInputs_append, decodeOp_withInputs]
    rfl

/-- A FEED has a next state wherever DLEN is legal (R23). -/
theorem State.LegalDlen.feedOp_next {s : State} (hs : s.LegalDlen) (b : Byte) :
    ∃ t, feedOp b s = .next t := by
  rcases feedOp_cases b s with ⟨-, e⟩ | ⟨-, -, e⟩ | ⟨-, -, e⟩ | ⟨-, -, -, -, e⟩ | ⟨-, -, -, -, -, e⟩ |
    ⟨-, -, -, hd, hlt, -⟩
  · exact ⟨_, e⟩
  · exact ⟨_, e⟩
  · exact ⟨_, e⟩
  · exact ⟨_, e⟩
  · exact ⟨_, e⟩
  · rcases hs with h0 | h4
    · simp [h0] at hd
    · omega

/-- The three instructions the input pulses select (R70). -/
inductive IsPulse : Instr → Prop where
  | reset : IsPulse .reset
  | feed (b : Byte) : IsPulse (.feed b)
  | encode (fc : Fc) (axis : Byte) (arg : Value) : IsPulse (.encode fc axis arg)

/-- What a pulse does is the same whatever moves are to come, and leaves them. -/
theorem IsPulse.exec_withInputs {i : Instr} (hi : IsPulse i) {s t : State} (h : exec i s = .next t)
    (rs : List Request) : exec i (s.withInputs rs) = .next (t.withInputs rs) ∧ t.inputs = s.inputs := by
  cases hi with
  | reset => cases h; exact ⟨rfl, rfl⟩
  | feed b => exact ⟨feedOp_withInputs rs h, (feedOp_frame h).2.2.1⟩
  | encode fc axis arg => cases h; exact ⟨rfl, rfl⟩

section

variable {i : Instr} {s t : State} {r r' : Request} {rs : List Request}

/-- A step on a move that starts with a pulse performs it, and puts what is left of the move before the
later moves. -/
theorem IsPulse.step_of_inputs (hi : IsPulse i) {rest : Option Request} (hq : s.inputs = r :: rs)
    (hd : decode r = .run i rest) (h : exec i { s with inputs := rs } = .next t) :
    step s = .next (t.withInputs (rest.toList ++ t.inputs)) := by
  obtain ⟨hw, hinputs⟩ := hi.exec_withInputs h (rest.toList ++ rs)
  rw [step_of_run hq hd, hinputs]
  exact hw

/-- The same, of a move that an earlier step put back and that has another pulse left. -/
theorem IsPulse.step_of_rest (hi : IsPulse i) (hd : decode r = .run i (some r')) (h : exec i s = .next t) :
    step (s.withInputs (r :: s.inputs)) = .next (t.withInputs (r' :: t.inputs)) :=
  hi.step_of_inputs rfl hd h

/-- The same, of the last pulse of a move. -/
theorem IsPulse.step_of_last (hi : IsPulse i) (hd : decode r = .run i none) (h : exec i s = .next t) :
    step (s.withInputs (r :: s.inputs)) = .next t :=
  hi.step_of_inputs rfl hd h

end

/-- Settles O43: each step performs the pulse the decoder takes first and puts the others back; FEED has
a next state because DLEN is legal, after RESET in any case. -/
theorem simultaneousPulsesInOrder : Obligations.SimultaneousPulsesInOrder := by
  intro s rs b c
  have hreset : (resetOp { s with inputs := rs }).LegalDlen := .inl rfl
  have hencode := IsPulse.encode c.fc c.axis c.arg
  refine ⟨fun hq => ?_, fun hq => ?_, fun hq => ?_, fun hs hq => ?_⟩
  · obtain ⟨t, ht⟩ := hreset.feedOp_next b
    exact ⟨_, t, _, _, _, rfl, ht, rfl, IsPulse.reset.step_of_inputs hq rfl rfl,
      (IsPulse.feed b).step_of_rest rfl ht, hencode.step_of_last rfl rfl⟩
  · obtain ⟨t, ht⟩ := hreset.feedOp_next b
    exact ⟨_, t, _, rfl, ht, IsPulse.reset.step_of_inputs hq rfl rfl, (IsPulse.feed b).step_of_last rfl ht⟩
  · exact ⟨_, _, _, rfl, rfl, IsPulse.reset.step_of_inputs hq rfl rfl, hencode.step_of_last rfl rfl⟩
  · have hlegal : State.LegalDlen { s with inputs := rs } := hs
    obtain ⟨t, ht⟩ := hlegal.feedOp_next b
    exact ⟨t, _, _, ht, rfl, (IsPulse.feed b).step_of_inputs hq rfl ht, hencode.step_of_last rfl rfl⟩

end Sys2Proof.Machine

/-! ## The family of the checksum

CHK_GEN and CHK_VERIFY are read off the sum of the bytes modulo 128 (R90 to R92). What the checksum
sees of a change (R93) is then whether the change moves that sum. -/

namespace Sys2Proof.Ref

open Sys2Proof.Machine

theorem byteSum_append_cons (p q : List Byte) (b : Byte) :
    byteSum (p ++ b :: q) = byteSum p + (b.toNat + byteSum q) := by
  simp [byteSum]

theorem byteSum_perm {p q : List Byte} (h : p.Perm q) : byteSum p = byteSum q :=
  (h.map BitVec.toNat).sum_eq

/-- CHK_VERIFY as the comparison modulo 128 (R92). -/
theorem chkVerify_eq_decide (p : List Byte) (c : Byte) :
    chkVerify p c = decide (byteSum p % 128 = c.toNat % 128) :=
  Bool.eq_iff_iff.2 ((chkVerify_iff p c).trans decide_eq_true_iff.symm)

/-! ### A flipped bit -/

/-- Of the eight single-bit masks, bit 7 alone is outside the seven bits compared. -/
theorem low7_twoPow_eq_zero_iff {k : Nat} (hk : k < 8) : low7 (BitVec.twoPow 8 k) = 0 ↔ k = 7 := by
  revert k; decide

/-- A flipped bit leaves a byte modulo 128 exactly when it is bit 7. -/
theorem toNat_flip_mod_eq_iff {k : Nat} (hk : k < 8) (b : Byte) :
    (b ^^^ BitVec.twoPow 8 k).toNat % 128 = b.toNat % 128 ↔ k = 7 := by
  have hxor : low7 (b ^^^ BitVec.twoPow 8 k) = low7 b ^^^ low7 (BitVec.twoPow 8 k) := BitVec.setWidth_xor
  rw [← low7_toNat, ← low7_toNat, BitVec.toNat_inj, hxor, xor_left_eq_self_iff,
    ← low7_twoPow_eq_zero_iff hk]

end Sys2Proof.Ref

namespace Sys2Proof.Machine

open Sys2Proof.Ref

/-- Settles O3: the unit emits the checksum byte, which is 128 plus the sum modulo 128, and 128 divides
256. -/
theorem chkGenAddsSevenBits : Obligations.ChkGenAddsSevenBits := by
  intro p s
  have hunit : exec (.chkGen p) s = .next (s.emitUnit (.byte (chkGen p))) := rfl
  rw [hunit, chkGen_eq_byteSum, Nat.mod_mod_of_dvd _ (by decide : 128 ∣ 256), State.emitUnit]

/-- Settles O4: the unit emits the comparison modulo 128, and 128 divides 256. -/
theorem chkVerifyComparesSevenBits : Obligations.ChkVerifyComparesSevenBits := by
  intro p c s
  have hunit : exec (.chkVerify p c) s = .next (s.emitUnit (.bit (chkVerify p c))) := rfl
  rw [hunit, chkVerify_eq_decide, Nat.mod_mod_of_dvd _ (by decide : 128 ∣ 256), State.emitUnit]

/-- Settles O5: the two sides of the comparison agreed, so they still agree exactly when the flip leaves
its byte modulo 128. -/
theorem singleBitFlipsAreSeenButForBitSeven : Obligations.SingleBitFlipsAreSeenButForBitSeven := by
  intro p q b c k hk hpass
  rw [chkVerify_iff, ← byteSum] at hpass
  constructor
  · rw [chkVerify_iff, ← byteSum, ← hpass, byteSum_append_cons, byteSum_append_cons,
      ← toNat_flip_mod_eq_iff hk b]
    omega
  · rw [chkVerify_iff, ← byteSum, hpass, eq_comm, toNat_flip_mod_eq_iff hk]

/-- Settles O6: CHK_VERIFY reads the bytes through their sum modulo 128, and CHK_GEN through their sum,
which a permutation keeps. -/
theorem cancellingChangesAreMissed : Obligations.CancellingChangesAreMissed := by
  refine ⟨fun p q c hsum => ?_, fun p q hperm => ?_⟩
  · rw [chkVerify_eq_decide, chkVerify_eq_decide, hsum]
  · rw [chkGen_eq_byteSum, chkGen_eq_byteSum, byteSum_perm hperm]

end Sys2Proof.Machine

/-! ## The family of the integer unit

VLI_PACK gives the digits of its field and the unpackers read digits (R101 to R104), so what is left is
arithmetic on digits base 128: which ranges they cover, and when a leading digit is redundant (R105). -/

namespace Sys2Proof.Ref

open Sys2Proof.Machine

/-! ### The ranges of one to four groups -/

theorem pow_groups_le {n : Nat} (h4 : n ≤ 4) : 128 ^ n ≤ 2 ^ 28 :=
  Nat.pow_le_pow_right (n := 128) (by decide) h4

theorem two_pow_groups (n : Nat) : 2 ^ (7 * n) = 128 ^ n := pow_mul 2 7 n

/-- One to four groups lose nothing in 32 bits (R104). -/
theorem toNat_ofNat_groupNumber {g : List Group} (h4 : g.length ≤ 4) :
    (BitVec.ofNat 32 (groupNumber g)).toNat = groupNumber g := by
  have hlt := groupNumber_lt g
  have hle := pow_groups_le h4
  rw [BitVec.toNat_ofNat, Nat.mod_eq_of_lt (by omega)]

/-- The table of R102 gives the least number of groups whose range holds the value. -/
theorem groupsNeeded_le_iff {n : Nat} {v : Int} (h1 : 1 ≤ n) (hv : FitsGroups 4 v) :
    groupsNeeded v ≤ n ↔ FitsGroups n v := by
  refine ⟨(fits_groupsNeeded hv).mono, fun hn => ?_⟩
  rcases Nat.lt_or_ge 3 n with h3 | h3
  · exact (groupsNeeded_bounds v).2.trans h3
  · unfold FitsGroups at hn
    unfold groupsNeeded
    interval_cases n <;> split_ifs <;> omega

/-! ### A redundant leading group -/

/-- With a remainder below `m`, `k * m + r` lies between multiples of `m` as `k` lies between their factors. -/
theorem mul_le_mul_add_lt_mul_iff {k m r lo hi : Int} (h0 : 0 ≤ r) (hr : r < m) :
    lo * m ≤ k * m + r ∧ k * m + r < hi * m ↔ lo ≤ k ∧ k < hi := by
  have hm : 0 < m := by omega
  have hk : (k * m + r) / m = k := by
    rw [Int.add_comm, Int.add_mul_ediv_right _ _ hm.ne', Int.ediv_eq_zero_of_lt h0 hr, Int.zero_add]
  rw [← Int.le_ediv_iff_mul_le hm, ← Int.ediv_lt_iff_lt_mul hm, hk]

/-- The groups below the first hold the number exactly when the first only repeats their sign: the top two
digits together then lie in the signed range of one. -/
theorem fits_tail_iff_redundantGroup (x y : Group) (rest : List Group) :
    FitsGroups (y :: rest).length (signedNumber (x :: y :: rest)) ↔ redundantGroup x y = true := by
  have hr : (groupNumber rest : Int) < 128 ^ rest.length := by exact_mod_cast groupNumber_lt rest
  have hnumber : signedNumber (x :: y :: rest) =
      (128 * x.toInt + y.toNat) * 128 ^ rest.length + groupNumber rest := by
    rw [signedNumber_cons, groupNumber_cons, List.length_cons, pow_succ]; push_cast; ring
  have hrange : FitsGroups (y :: rest).length (signedNumber (x :: y :: rest)) ↔
      -64 ≤ 128 * x.toInt + y.toNat ∧ 128 * x.toInt + y.toNat < 64 := by
    rw [← mul_le_mul_add_lt_mul_iff (by positivity) hr, ← hnumber, FitsGroups, List.length_cons, pow_succ]
    omega
  have hx := x.isLt
  have hy := y.isLt
  rw [hrange, redundantGroup_iff, BitVec.toInt_eq_toNat_cond]
  split <;> omega

/-- Groups are as few as their value needs exactly when no leading one is redundant (R101, R102). -/
theorem groupsNeeded_signedNumber_iff {g : List Group} (h1 : 1 ≤ g.length) (h4 : g.length ≤ 4) :
    groupsNeeded (signedNumber g) = g.length ↔
      ∀ x y rest, g = x :: y :: rest → redundantGroup x y = false := by
  have hfits := signedNumber_fits h1
  have hle : groupsNeeded (signedNumber g) ≤ g.length := (groupsNeeded_le_iff h1 (hfits.mono h4)).2 hfits
  match g with
  | [x] => exact ⟨fun _ => nofun, fun _ => hle.antisymm (groupsNeeded_bounds _).1⟩
  | x :: y :: rest =>
    have htail := (groupsNeeded_le_iff (n := (y :: rest).length) (Nat.le_add_left 1 _) (hfits.mono h4)).trans
      (fits_tail_iff_redundantGroup x y rest)
    have hlen : groupsNeeded (signedNumber (x :: y :: rest)) = (x :: y :: rest).length ↔
        redundantGroup x y = false := by
      rw [List.length_cons] at hle
      rw [← Bool.not_eq_true, ← htail, List.length_cons]
      omega
    exact hlen.trans ⟨by rintro h _ _ _ ⟨⟩; exact h, fun h => h x y rest rfl⟩

end Sys2Proof.Ref

namespace Sys2Proof.Machine

open Sys2Proof.Ref

/-! ### The units by arithmetic -/

/-- VLI_UNPACK_S, for any number of groups (R103; log 11). -/
theorem exec_vliUnpackS (g : List Group) (s : State) : exec (.vliUnpackS g) s =
    if groupsOk g then .next (s.emitUnit (.value (BitVec.ofInt 32 (signedNumber g))))
    else .refused .operandsOutsideDomain := by
  cases g with
  | nil => rfl
  | cons x rest => rw [← vliUnpackS_eq_ofInt]; rfl

/-- VLI_UNPACK_U, for any number of groups (R104; log 11). -/
theorem exec_vliUnpackU (g : List Group) (s : State) : exec (.vliUnpackU g) s =
    if groupsOk g then .next (s.emitUnit (.value (BitVec.ofNat 32 (groupNumber g))))
    else .refused .operandsOutsideDomain := by
  cases g with
  | nil => rfl
  | cons x rest => rw [← vliUnpackU_eq_ofNat]; rfl

/-- Settles O7: the unit emits the groups of the field, which are its low digits. -/
theorem vliPackIsShortestSigned : Obligations.VliPackIsShortestSigned := by
  intro a s
  have hunit : exec (.vliPack a) s = .next (s.emitUnit (.groups (vliPack a))) := rfl
  rw [hunit, vliPack_eq_lowGroups, State.emitUnit]

/-- Settles O8: shifting in the groups below a sign-extended one is reading two's complement. -/
theorem vliUnpackSignedReads : Obligations.VliUnpackSignedReads := by
  intro g s h1 h4
  rw [exec_vliUnpackS, if_pos ((groupsOk_iff g).2 ⟨h1, h4⟩), State.emitUnit]

/-- Settles O9: shifting in groups is reading digits, and four of them stay below 2^28. -/
theorem vliUnpackUnsignedReads : Obligations.VliUnpackUnsignedReads := by
  intro g s h1 h4
  refine ⟨?_, toNat_ofNat_groupNumber h4, ?_⟩
  · rw [exec_vliUnpackU, if_pos ((groupsOk_iff g).2 ⟨h1, h4⟩), State.emitUnit]
  · rw [two_pow_groups]
    exact Nat.le_sub_one_of_lt (groupNumber_lt g)

/-- Settles O10: all three are guarded by `groupsOk`, a received row through `receiveOp`. -/
theorem otherGroupCountsRefused : Obligations.OtherGroupCountsRefused := by
  intro g s hlen
  have hg : ¬ groupsOk g = true := by rw [groupsOk_iff]; omega
  refine ⟨?_, ?_, fun row hrow axis check => ?_⟩
  · rw [exec_vliUnpackS, if_neg hg]
  · rw [exec_vliUnpackU, if_neg hg]
  · rw [eq_received_of_mem rfl hrow, exec_received, receiveOp, if_neg hg]

/-! ### A packed field, unpacked -/

/-- The packed groups read without a sign are the field's low bits (R105). -/
theorem groupNumber_vliPack (a : ArgField) :
    groupNumber (vliPack a) = a.toNat % 128 ^ (vliPack a).length := by
  have hlen : (vliPack a).length = groupsNeeded a.toInt := by rw [vliPack_eq_lowGroups, lowGroups_length]
  have hdvd : (128 : Int) ^ groupsNeeded a.toInt ∣ (2 ^ 28 : Nat) :=
    pow_dvd_pow 128 (groupsNeeded_bounds a.toInt).2
  have hfield : a.toInt % (2 ^ 28 : Nat) = a.toNat % (2 ^ 28 : Nat) := by
    rw [BitVec.toInt_eq_toNat_bmod, Int.bmod_emod]
  have hmod : (groupNumber (vliPack a) : Int) = a.toNat % 128 ^ groupsNeeded a.toInt := by
    rw [vliPack_eq_lowGroups, groupNumber_lowGroups, ← Int.emod_emod_of_dvd a.toInt hdvd, hfield,
      Int.emod_emod_of_dvd _ hdvd]
  rw [hlen]
  exact_mod_cast hmod

/-- A field that is not negative is smaller than the range of its packed groups, so they hold all of it. -/
theorem groupNumber_vliPack_of_msb {a : ArgField} (hmsb : a.msb = false) :
    groupNumber (vliPack a) = a.toNat := by
  have hfits := signedNumber_fits (vliPack_length a).1
  rw [signedNumber_vliPack, BitVec.toInt_eq_toNat_of_msb hmsb] at hfits
  obtain ⟨-, hhi⟩ := hfits
  have hlt : (a.toNat : Int) < 128 ^ (vliPack a).length := by omega
  rw [groupNumber_vliPack, Nat.mod_eq_of_lt (by exact_mod_cast hlt)]

/-- Settles O11: the unpackers read the packed groups, as a signed number the field and as an unsigned one
its low bits. -/
theorem vliRoundTrip : Obligations.VliRoundTrip := by
  intro a
  obtain ⟨h1, h4⟩ := vliPack_length a
  obtain ⟨g, rest, hp⟩ := List.exists_cons_of_length_pos h1
  refine ⟨g, rest, hp, ?_, fun hmsb => ?_, fun _ => ?_⟩
  · rw [vliUnpackS_eq_ofInt, ← hp, signedNumber_vliPack, BitVec.signExtend]
  · rw [vliUnpackU_eq_ofNat, ← hp, groupNumber_vliPack_of_msb hmsb, BitVec.ofNat_toNat]
  · rw [vliUnpackU_eq_ofNat, ← hp, toNat_ofNat_groupNumber h4, groupNumber_vliPack, two_pow_groups]

/-- The packed sequences are those of one to four groups that are as few as their value needs (R105). -/
theorem exists_vliPack_eq_iff (g : List Group) : (∃ a, vliPack a = g) ↔
    1 ≤ g.length ∧ g.length ≤ 4 ∧ groupsNeeded (signedNumber g) = g.length := by
  constructor
  · rintro ⟨a, rfl⟩
    obtain ⟨h1, h4⟩ := vliPack_length a
    exact ⟨h1, h4, groupsNeeded_signedNumber_vliPack a⟩
  · rintro ⟨h1, h4, hmin⟩
    exact ⟨_, vliPack_ofInt_signedNumber h1 h4 hmin⟩

/-- Settles O12: the signed reading undoes VLI_PACK, and its image is the sequences as short as their value
needs. -/
theorem vliPackImage : Obligations.VliPackImage := by
  refine ⟨fun a b h => ?_, fun g => ?_⟩
  · rw [← BitVec.toInt_inj, ← signedNumber_vliPack a, h, signedNumber_vliPack]
  · rw [exists_vliPack_eq_iff]
    refine and_congr_right fun h1 => and_congr_right fun h4 => ?_
    simp only [groupsNeeded_signedNumber_iff h1 h4, ← Bool.not_eq_true, redundantGroup_iff, not_or]

end Sys2Proof.Machine

/-! ## The family of the frame assembler: the rows of R126

A FEED of an address byte restarts (R121). A FEED of any other byte is dropped, declares the length,
is stored, or completes the packet, as `feedOp_cases` says; each statement is read off that case split,
and the two about runs of bytes chain its rows. -/

namespace Sys2Proof.Machine

/-! ### The byte fed, and where it is stored -/

theorem exec_feed (b : Byte) (s : State) : exec (.feed b) s = feedOp b s := rfl

theorem framingBit_eq_true_iff (b : Byte) : framingBit b = true ↔ 128 ≤ b.toNat := by
  rw [framingBit_eq_decide, decide_eq_true_iff]

/-- What BUF holds after a byte is stored at index COUNT (R122). -/
theorem State.append_get? (s : State) (b : Byte) (i : Nat) :
    (s.append b).buf.get? i = if i = s.count.toNat then some b else s.buf.get? i := by
  rw [State.append_buf, Memory.get?_set]
  simp only [eq_comm]

/-- The length a control byte declares, by arithmetic (R123). -/
theorem declaredLength_eq_ofNat (b : Byte) :
    (4 + (controlLc b).setWidth 3 : BitVec 3) = BitVec.ofNat 3 (4 + b.toNat / 32 % 4) := by
  apply BitVec.eq_of_toNat_eq
  rw [declaredLength_toNat, controlLc_toNat, BitVec.toNat_ofNat]
  omega

theorem count_ne_one_of_two_le {c : BitVec 4} (h2 : 2 ≤ c.toNat) : c ≠ 1 := by
  rintro rfl
  exact absurd h2 (by decide)

/-! ### One FEED -/

/-- Settles O18: the row of R126 for an address byte, and the byte stored at index 0. -/
theorem feedAddressByteRestarts : Obligations.FeedAddressByteRestarts := by
  intro s b hb
  exact ⟨_, feedOp_address (framingBit_of_lt hb) s, s.restart.append_get? b⟩

/-- A byte with bit 7 set is stored, whatever else its FEED does (R122). -/
theorem feedOp_appends {b : Byte} {s t : State} (hb : framingBit b = true) (hc : s.count.toNat < 8)
    (h : feedOp b s = .next t) : t.count = (s.append b).count ∧ t.buf = (s.append b).buf := by
  rcases feedOp_next_cases h with ⟨hclear, -⟩ | ⟨-, hfull, -⟩ | ⟨-, -, rfl⟩ | ⟨-, -, -, -, rfl⟩ |
    ⟨-, -, -, -, -, rfl⟩
  · simp [hb] at hclear
  · omega
  · exact ⟨rfl, rfl⟩
  · exact ⟨rfl, rfl⟩
  · have hsame := decodeOp_sameAssembly s.dlen.toNat (s.append b)
    exact ⟨hsame.count, hsame.buf⟩

/-- Settles O19: a byte with bit 7 set is stored below the capacity and dropped at it, and an address
byte is stored after a restart. -/
theorem feedAppendsUnlessFull : Obligations.FeedAppendsUnlessFull := by
  refine ⟨fun s t b hb hc h => ?_, fun s b hb hc => ?_, fun s t b hb h => ?_⟩
  · obtain ⟨hcount, hbuf⟩ := feedOp_appends (framingBit_of_ge hb) hc h
    rw [hcount, hbuf]
    exact ⟨count_add_one_toNat hc, s.append_get? b⟩
  · exact ⟨_, feedOp_full (framingBit_of_ge hb) hc, by simp⟩
  · rw [exec_feed, feedOp_address (framingBit_of_lt hb), Host.Outcome.next.injEq] at h
    subst h
    exact ⟨rfl, s.restart.append_get? b 0⟩

/-- Settles O20: the control byte declares its length, and any other byte is stored. -/
theorem feedBeforeCompletionRaisesNothing : Obligations.FeedBeforeCompletionRaisesNothing := by
  intro s b hb hc hopen
  have hset := framingBit_of_ge hb
  refine ⟨_, ?_, s.append_get? b⟩
  by_cases h1 : s.count = 1
  · rw [exec_feed, feedOp_control hset h1, if_pos h1, declaredLength_eq_ofNat]
    rfl
  · rw [exec_feed, feedOp_store hset hc h1 (hopen.resolve_left h1), if_neg h1]
    rfl

/-- DLEN is written by the control byte and by a restart alone (R121, R123). -/
theorem feedOp_keeps_dlen {b : Byte} {s t : State} (hb : framingBit b = true) (h1 : s.count ≠ 1)
    (h : feedOp b s = .next t) : t.dlen = s.dlen := by
  rcases feedOp_next_cases h with ⟨hclear, -⟩ | ⟨-, -, rfl⟩ | ⟨-, hone, -⟩ | ⟨-, -, -, -, rfl⟩ |
    ⟨-, -, -, -, -, rfl⟩
  · simp [hb] at hclear
  · rfl
  · exact absurd hone h1
  · rfl
  · exact (decodeOp_sameAssembly s.dlen.toNat (s.append b)).dlen

/-- Settles O21: the row of R126 for the control byte, and what the other rows leave. -/
theorem feedControlByteDeclaresLength : Obligations.FeedControlByteDeclaresLength := by
  intro s b hb
  have hset := framingBit_of_ge hb
  refine ⟨fun h1 => ⟨_, feedOp_control hset h1, ?_, ?_, ?_⟩, fun h1 t => feedOp_keeps_dlen hset h1⟩
  · simp [h1]
  · rw [State.raise_buf, State.declare_buf, State.append_get?, if_pos (by simp [h1])]
  · rw [State.raise_dlen, State.declare_dlen, declaredLength_toNat, controlLc_toNat]

/-- Settles O22: the row of R126 that completes a packet is the call of DECODE. -/
theorem feedCompletionCallsDecode : Obligations.FeedCompletionCallsDecode := by
  intro s b hb h4 hd
  have h7 := s.dlen.isLt
  exact ⟨_, feedOp_complete (framingBit_of_ge hb) (by omega) (count_ne_one_of_two_le (by omega)) hd,
    s.append_get? b⟩

/-- DECODE returns a report, never NONE (R171, R175). -/
theorem decodeOp_event_ne_none (len : Nat) (s : State) : (decodeOp len s).2 ≠ .none := by
  rcases decodeOp_cases len s with ⟨axis, fc, value, h⟩ | h <;> rw [h]
  · exact reportOf_ne_none axis fc value
  · simp

/-- A FEED raises NONE, or it completes a packet and raises the report of DECODE (R126, R133). -/
theorem feedOp_event {b : Byte} {s t : State} (h : feedOp b s = .next t) :
    ∃ e, t.events = s.events ++ [e] ∧
      (e ≠ .none ↔ framingBit b = true ∧ 4 ≤ s.dlen.toNat ∧ s.count.toNat + 1 = s.dlen.toNat) := by
  have h7 := s.dlen.isLt
  rcases feedOp_next_cases h with ⟨hb, rfl⟩ | ⟨-, hfull, rfl⟩ | ⟨-, h1, rfl⟩ | ⟨-, -, -, hd, rfl⟩ |
    ⟨hb, -, -, hd, h4, rfl⟩
  · exact ⟨.none, rfl, by simp [hb]⟩
  · exact ⟨.none, rfl, iff_of_false (not_not.2 rfl) fun ⟨_, _, hd⟩ => by omega⟩
  · have hone : s.count.toNat = 1 := by rw [h1]; rfl
    exact ⟨.none, rfl, iff_of_false (not_not.2 rfl) fun ⟨_, h4, hd⟩ => by omega⟩
  · exact ⟨.none, rfl, by simp [hd]⟩
  · have hstream := (decodeOp_streams s.dlen.toNat (s.append b)).2
    exact ⟨(decodeOp s.dlen.toNat (s.append b)).2, by rw [State.raise_events, hstream, State.append_events],
      iff_of_true (decodeOp_event_ne_none _ _) ⟨hb, h4, hd⟩⟩

/-- The invariant makes DLEN legal (R33). -/
theorem State.Inv.legalDlen {s : State} (hs : s.Inv) : s.LegalDlen :=
  or_iff_not_imp_left.2 hs.four_le_dlen

/-- Settles O23: a FEED has a next state because DLEN is legal, and raises one event. -/
theorem feedRaisesExactlyOneEvent : Obligations.FeedRaisesExactlyOneEvent := by
  intro s b hs
  obtain ⟨t, ht⟩ := hs.legalDlen.feedOp_next b
  obtain ⟨e, hevents, hreport⟩ := feedOp_event ht
  obtain ⟨htx, hunit, hinputs, hfree⟩ := feedOp_frame ht
  rw [framingBit_eq_true_iff] at hreport
  exact ⟨t, e, ht, hevents, hreport, htx, hinputs, hunit, hfree⟩

/-! ### Runs of FEEDs -/

/-- The state after an address byte and a control byte, whatever was before (R121, R123). -/
def State.header (s : State) (a c : Byte) : State :=
  ((((s.restart.append a).raise .none).append c).declare (4 + (controlLc c).setWidth 3)).raise .none

theorem feedAll_header {a c : Byte} (ha : framingBit a = false) (hc : framingBit c = true)
    (bytes : List Byte) (s : State) : feedAll (a :: c :: bytes) s = feedAll bytes (s.header a c) := by
  rw [feedAll_cons_next (feedOp_address ha s), feedAll_cons_next (feedOp_control hc (by simp))]
  rfl

@[simp] theorem State.header_count (s : State) (a c : Byte) : (s.header a c).count = 2 := by
  simp [State.header]

theorem State.header_dlen (s : State) (a c : Byte) : (s.header a c).dlen.toNat = 4 + c.toNat / 32 % 4 := by
  rw [← controlLc_toNat, ← declaredLength_toNat]
  rfl

theorem State.header_events (s : State) (a c : Byte) :
    (s.header a c).events = s.events ++ List.replicate 2 .none := by
  simp [State.header, List.replicate]

/-- Settles O24: the header declares a length that the bytes stored after it do not reach. -/
theorem truncatedPacketIsSilent : Obligations.TruncatedPacketIsSilent := by
  intro s a c bytes ha hc hbytes hshort
  have hdlen := s.header_dlen a c
  have hcount : (s.header a c).count.toNat = 2 := by simp
  obtain ⟨m, n, hfeed, hn, -⟩ := feedAll_store (s := s.header a c)
    (fun b hb => framingBit_of_ge (hbytes b hb)) (by omega) (by omega)
  refine ⟨_, (feeds_eq_some_iff _ _ _).2
    ((feedAll_header (framingBit_of_lt ha) (framingBit_of_ge hc) bytes s).trans hfeed),
    ?_, rfl, rfl, rfl, rfl, hn.trans (by omega), hdlen⟩
  rw [State.header_events, List.append_assoc, List.replicate_append_replicate, Nat.add_comm]

/-- Storing `b` at index `k` and then `bytes` from the next index on, up to `n`, is storing `b :: bytes`. -/
theorem Memory.get?_set_then_fill (m : Memory) {k n : Nat} (hk : k < n) (b : Byte) (bytes : List Byte)
    (i : Nat) :
    (if k + 1 ≤ i ∧ i < n then bytes[i - (k + 1)]? else (m.set k b).get? i) =
      if k ≤ i ∧ i < n then (b :: bytes)[i - k]? else m.get? i := by
  rcases Nat.lt_trichotomy i k with hlt | rfl | hgt
  · rw [if_neg (by omega), if_neg (by omega), Memory.get?_set_ne m b (by omega)]
  · simp [hk]
  · have hidx : i - k = i - (k + 1) + 1 := by omega
    rw [Memory.get?_set_ne m b (by omega), hidx, List.getElem?_cons_succ]
    simp only [show k + 1 ≤ i ↔ k ≤ i by omega]

/-- Bytes with bit 7 set after a completed packet are stored up to the capacity, then dropped (R130). -/
theorem feedAll_trailing {bytes : List Byte} {s : State} (hb : ∀ b ∈ bytes, framingBit b = true)
    (h2 : 2 ≤ s.count.toNat) (h8 : s.count.toNat ≤ 8) (hd : s.dlen.toNat ≤ s.count.toNat) :
    ∃ (m : Memory) (c : BitVec 4),
      feedAll bytes s = .next { s with
        count := c, buf := m, events := s.events ++ List.replicate bytes.length .none } ∧
      c.toNat = min 8 (s.count.toNat + bytes.length) ∧
      ∀ i, m.get? i = if s.count.toNat ≤ i ∧ i < min 8 (s.count.toNat + bytes.length)
        then bytes[i - s.count.toNat]? else s.buf.get? i := by
  induction bytes generalizing s with
  | nil =>
    exact ⟨s.buf, s.count, by simp [feedAll], by simp [h8],
      fun i => by rw [List.length_nil, if_neg (by omega)]⟩
  | cons b bytes ih =>
    obtain ⟨hset, hrest⟩ := List.forall_mem_cons.1 hb
    by_cases hc : s.count.toNat < 8
    · have hcount : ((s.append b).raise .none).count.toNat = s.count.toNat + 1 := count_add_one_toNat hc
      have hdlen : ((s.append b).raise .none).dlen = s.dlen := rfl
      obtain ⟨m, c, hfeed, hc', hm⟩ := ih (s := (s.append b).raise .none) hrest (by omega) (by omega)
        (by rw [hdlen]; omega)
      have hsum : s.count.toNat + 1 + bytes.length = s.count.toNat + (b :: bytes).length := by
        rw [List.length_cons]; omega
      rw [hcount, hsum] at hc'
      rw [hcount, hsum] at hm
      refine ⟨m, c, ?_, hc', fun i => ?_⟩
      · rw [feedAll_cons_next (feedOp_store hset hc (count_ne_one_of_two_le h2) (by omega)), hfeed]
        simp [State.append, State.raise, List.replicate_succ]
      · exact (hm i).trans (Memory.get?_set_then_fill s.buf (by simp; omega) b bytes i)
    · obtain ⟨m, c, hfeed, hc', hm⟩ := ih (s := s.raise .none) hrest h2 h8 hd
      rw [State.raise_count] at hc' hm
      refine ⟨m, c, ?_, by rw [hc', List.length_cons]; omega, fun i => ?_⟩
      · rw [feedAll_cons_next (feedOp_full hset (by omega)), hfeed]
        simp [State.raise, List.replicate_succ]
      · rw [hm, if_neg (by omega), if_neg (by omega), State.raise_buf]

/-- Settles O25: the invariant bounds COUNT by the capacity, and the declared length is already reached. -/
theorem trailingBytesRaiseNothing : Obligations.TrailingBytesRaiseNothing := by
  intro s bytes ⟨hcap, _⟩ h2 hd hbytes
  obtain ⟨m, c, hfeed, hc, hm⟩ := feedAll_trailing (fun b hb => framingBit_of_ge (hbytes b hb)) h2 hcap hd
  exact ⟨_, (feeds_eq_some_iff _ _ _).2 hfeed, rfl, hc, rfl, hm, rfl, rfl, rfl, rfl, rfl, rfl, rfl, rfl⟩

end Sys2Proof.Machine

/-! ## The family of ENCODE: the packet it emits, and that packet received

ENCODE emits a packet whose groups are the digits of its reduced argument and whose check bits are the sum
of the bytes before them (R150). Its bytes by arithmetic are O14, O15 and O16; the arrival of such a packet
passes the checksum and reads the digits back (R157). -/

namespace Sys2Proof.Ref

open Sys2Proof.Machine

/-! ### The argument reduced to 28 bits -/

theorem toInt_setWidth_eq_wrap28 (arg : Value) : (arg.setWidth 28).toInt = wrap28 arg := by
  rw [BitVec.toInt_setWidth, wrap28, BitVec.toInt_eq_toNat_bmod, Int.bmod_bmod_of_dvd (by decide)]

/-- In the supported range the mask loses nothing (R151). -/
theorem wrap28_of_range {arg : Value} (hlo : -(2 ^ 27) ≤ arg.toInt) (hhi : arg.toInt ≤ 2 ^ 27 - 1) :
    wrap28 arg = arg.toInt :=
  Int.bmod_eq_of_le (by omega) (by omega)

/-- The balanced remainder tells two integers apart exactly when the remainder does. -/
theorem wrap28_eq_iff (arg arg' : Value) :
    wrap28 arg = wrap28 arg' ↔ arg.toInt % 2 ^ 28 = arg'.toInt % 2 ^ 28 := by
  have hmod (z : Int) : z.bmod (2 ^ 28) % 2 ^ 28 = z % 2 ^ 28 := Int.bmod_emod
  have hbmod (z : Int) : (z % 2 ^ 28).bmod (2 ^ 28) = z.bmod (2 ^ 28) := Int.emod_bmod z (2 ^ 28)
  unfold wrap28
  exact ⟨fun h => by rw [← hmod, h, hmod], fun h => by rw [← hbmod, h, hbmod]⟩

/-! ### The recorded value, signed or unsigned -/

/-- Read without a sign, a negative number of `n` groups is `128 ^ n` more (R105). -/
theorem groupNumber_eq_signedNumber (g : List Group) : (groupNumber g : Int) =
    if signedNumber g < 0 then signedNumber g + 128 ^ g.length else signedNumber g := by
  have hlt : (groupNumber g : Int) < 128 ^ g.length := by exact_mod_cast groupNumber_lt g
  unfold signedNumber
  split <;> split <;> omega

/-- The recorded value is the signed reading, but for a negative one decoded as unsigned (R174). -/
theorem valueOf_eq_ofInt_signedNumber (fc : Fc) (g : List Group) : valueOf fc g =
    if Config.decodesUnsigned fc = true ∧ signedNumber g < 0
    then BitVec.ofInt 32 (signedNumber g + 2 ^ (7 * g.length)) else BitVec.ofInt 32 (signedNumber g) := by
  have hpow : (2 : Int) ^ (7 * g.length) = 128 ^ g.length := by exact_mod_cast two_pow_groups g.length
  rw [valueOf, ← BitVec.ofInt_natCast, groupNumber_eq_signedNumber, hpow]
  by_cases hu : Config.decodesUnsigned fc = true
  · by_cases hneg : signedNumber g < 0 <;> simp [hu, hneg]
  · simp [hu]

/-- POS_FC is never decoded as unsigned (R8). -/
theorem decodesUnsigned_posFc : Config.decodesUnsigned 0x1B = false := rfl

/-- The arrival of a packet whose check bits are those of its sum: accepted, in its last byte. -/
theorem Arrives.accepted {fc : Fc} {axis : Axis} {data : List Group} {s t : State}
    (h1 : 1 ≤ data.length) (h4 : data.length ≤ 4)
    (h : Arrives fc axis data (low7 (sum8 (packetBody fc axis data))) s t) :
    t.events = s.events ++ List.replicate (data.length + 2) .none ++
      [reportFor axis fc (valueOf fc data)] ∧
    t.status = .success ∧ t.lastAxis = axis ∧ t.lastFc = fc ∧ t.lastValue = valueOf fc data := by
  have hpass : byteSum (bodyOf fc.toNat axis.toNat data) % 128 =
      (low7 (sum8 (packetBody fc axis data))).toNat := by
    rw [bodyOf_eq_packetBody h1 h4, ← low7_sum8_eq_iff]
  obtain ⟨-, -, -, hevents, hstatus, haxis, hfc, hvalue, -⟩ := h
  rw [if_pos hpass] at hevents hstatus haxis hfc hvalue
  exact ⟨hevents, hstatus, haxis, hfc, hvalue⟩

end Sys2Proof.Ref

namespace Sys2Proof.Machine

open Sys2Proof.Ref

/-! ### The packet ENCODE emits -/

theorem exec_encode (fc : Fc) (axis : Byte) (arg : Value) (s : State) :
    exec (.encode fc axis arg) s = .next (s.transmit (encodePacket fc axis arg)) := rfl

/-- ENCODE's packet by the fields of R60: its check bits are those of the sum of the bytes before them. -/
theorem encodePacket_eq_packetBytes (fc : Fc) (axis : Byte) (arg : Value) :
    encodePacket fc axis arg = packetBytes fc (low7 axis) (vliPack (arg.setWidth 28))
      (low7 (sum8 (packetBody fc (low7 axis) (vliPack (arg.setWidth 28))))) := by
  rw [encodePacket_eq, packetBytes_eq, ← low7_chkGen, dataByte_low7 (framingBit_chkGen _)]

theorem encodePacket_length (fc : Fc) (axis : Byte) (arg : Value) :
    (encodePacket fc axis arg).length = (vliPack (arg.setWidth 28)).length + 3 := by
  rw [encodePacket_eq_packetBytes, packetBytes_length]

/-- ENCODE's packet by arithmetic (R158). -/
theorem encodePacket_eq_packetOf (fc : Fc) (axis : Byte) (arg : Value) :
    encodePacket fc axis arg = packetOf fc.toNat (axis.toNat % 128) (wrap28 arg) := by
  obtain ⟨h1, h4⟩ := vliPack_length (arg.setWidth 28)
  rw [packetOf, ← toInt_setWidth_eq_wrap28, ← vliPack_eq_lowGroups, ← low7_toNat,
    bodyOf_eq_packetBody h1 h4, encodePacket_eq, chkGen_eq_byteSum]

/-- Settles O14: what ENCODE hands to the sink, by arithmetic. -/
theorem encodeEmitsShortestPacket : Obligations.EncodeEmitsShortestPacket := by
  intro fc axis arg s
  rw [exec_encode, encodePacket_eq_packetOf, State.transmit]

theorem dataByte_injective : Function.Injective dataByte :=
  Function.LeftInverse.injective low7_dataByte

/-- The packet determines the argument's 28-bit field: the data bytes are its groups, and VLI_PACK is
injective (R105). -/
theorem encodePacket_eq_iff (fc : Fc) (axis : Byte) (arg arg' : Value) :
    encodePacket fc axis arg = encodePacket fc axis arg' ↔ wrap28 arg = wrap28 arg' := by
  refine ⟨fun h => ?_, fun h => by rw [encodePacket_eq_packetOf, encodePacket_eq_packetOf, h]⟩
  rw [encodePacket_eq, encodePacket_eq] at h
  have hbody := (List.append_inj' h (by simp only [List.length_singleton])).1
  have hgroups : vliPack (arg.setWidth 28) = vliPack (arg'.setWidth 28) :=
    dataByte_injective.list_map (congrArg (List.drop 2) hbody)
  rw [← toInt_setWidth_eq_wrap28, ← toInt_setWidth_eq_wrap28, vliPackImage.1 _ _ hgroups]

/-- Settles O15: the argument in range is its own reduction, and the TX stream shows the packet. -/
theorem encodeMasksArgument : Obligations.EncodeMasksArgument := by
  refine ⟨fun fc axis arg s hlo hhi => ?_, fun fc axis arg arg' s => ?_⟩
  · rw [encodeEmitsShortestPacket, wrap28_of_range hlo hhi]
  · rw [exec_encode, exec_encode, ← wrap28_eq_iff, ← encodePacket_eq_iff fc axis]
    exact ⟨fun h => List.append_cancel_left (congrArg State.tx (Host.Outcome.next.inj h)), fun h => by rw [h]⟩

/-- Settles O16: the address byte of the packet is the axis modulo 128. -/
theorem encodeAddressByteClearsBitSeven : Obligations.EncodeAddressByteClearsBitSeven :=
  fun fc axis arg s => ⟨_, encodeEmitsShortestPacket fc axis arg s⟩

/-! ### The packet ENCODE emits, received -/

/-- A packet fed in any state leaves what R120 and R170 say of its arrival. -/
theorem feeds_packetBytes (fc : Fc) (axis : Axis) {data : List Group} (check : BitVec 7) (s : State)
    (h1 : 1 ≤ data.length) (h4 : data.length ≤ 4) :
    ∃ t, feeds (packetBytes fc axis data check) s = some t ∧ Arrives fc axis data check s t := by
  obtain ⟨t, ht, harrives⟩ := receiveOp_arrives fc axis check s h1 h4
  rw [receiveOp, if_pos ((groupsOk_iff data).2 ⟨h1, h4⟩)] at ht
  exact ⟨t, (feeds_eq_some_iff _ _ _).2 ht, harrives⟩

/-- The groups of an argument in range are recorded as the argument, but for a negative one decoded as
unsigned (R105, R157). -/
theorem valueOf_vliPack (fc : Fc) {arg : Value} (hlo : -(2 ^ 27) ≤ arg.toInt)
    (hhi : arg.toInt ≤ 2 ^ 27 - 1) : valueOf fc (vliPack (arg.setWidth 28)) =
      if Config.decodesUnsigned fc = true ∧ arg.toInt < 0
      then BitVec.ofInt 32 (arg.toInt + 2 ^ (7 * (vliPack (arg.setWidth 28)).length)) else arg := by
  rw [valueOf_eq_ofInt_signedNumber, signedNumber_vliPack, toInt_setWidth_eq_wrap28,
    wrap28_of_range hlo hhi, BitVec.ofInt_toInt]

/-- The position report carries the argument itself, since POS_FC is not decoded as unsigned (R174, R175). -/
theorem reportFor_valueOf_vliPack (fc : Fc) (axis : Axis) {arg : Value} (hlo : -(2 ^ 27) ≤ arg.toInt)
    (hhi : arg.toInt ≤ 2 ^ 27 - 1) : reportFor axis fc (valueOf fc (vliPack (arg.setWidth 28))) =
      if fc = 0x1B then .pos arg else .gen axis fc (valueOf fc (vliPack (arg.setWidth 28))) := by
  by_cases hpos : fc = 0x1B
  · subst hpos
    rw [reportFor, if_pos rfl, if_pos rfl, valueOf_vliPack _ hlo hhi, decodesUnsigned_posFc,
      if_neg (by simp)]
  · rw [reportFor, if_neg hpos, if_neg hpos]

/-- Settles O36: the packet's check bits are those of its sum, so its arrival is accepted, and its groups
read back as the argument. -/
theorem encodedPacketDecodesToItsFields : Obligations.EncodedPacketDecodesToItsFields := by
  intro fc axis arg s s' hlo hhi
  obtain ⟨h1, h4⟩ := vliPack_length (arg.setWidth 28)
  have haxis : low7 (axis.setWidth 8) = axis := low7_addressByte axis
  have hpacket := encodePacket_eq_packetBytes fc (axis.setWidth 8) arg
  have hlen := encodePacket_length fc (axis.setWidth 8) arg
  rw [haxis] at hpacket
  obtain ⟨t, hfeeds, harrives⟩ := feeds_packetBytes fc axis
    (low7 (sum8 (packetBody fc axis (vliPack (arg.setWidth 28))))) s' h1 h4
  obtain ⟨hevents, hsession⟩ := harrives.accepted h1 h4
  refine ⟨encodePacket fc (axis.setWidth 8) arg, t, valueOf fc (vliPack (arg.setWidth 28)),
    exec_encode fc _ arg s, ?_, ?_, ?_, hsession⟩
  · rw [hlen, Nat.add_sub_cancel, valueOf_vliPack fc hlo hhi]
  · rw [hpacket, hfeeds]
  · rw [hevents, hlen, reportFor_valueOf_vliPack fc axis hlo hhi, Nat.add_sub_assoc (by decide)]

end Sys2Proof.Machine

/-! ## The family of DECODE: the packet BUF holds, verified and recorded

FEED calls DECODE with L = DLEN = COUNT, and any other call is refused (R180). The call that is made
compares the sum of the bytes before the checksum byte with that byte, modulo 128 (R171); an accepted
packet is recorded by the fields of its first two bytes and the digits of the others (R172 to R176). -/

namespace Sys2Proof.Machine

open Sys2Proof.Ref

theorem exec_decode (len : Nat) (s : State) : exec (.decode len) s = decodeCall len s := rfl

/-- Settles O28: DECODE is the call FEED makes, which is refused outside its domain. -/
theorem decodeRefusedOutsideFeed : Obligations.DecodeRefusedOutsideFeed := by
  intro len s h
  rw [exec_decode, decodeCall_refused h]

/-- The checksum of the packet BUF holds agrees with the sum of the bytes before it (R171). -/
def State.ChecksumAgrees (s : State) (len : Nat) : Prop :=
  byteSum ((List.range (len - 1)).map s.bufByte) % 256 % 128 = (s.bufByte (len - 1)).toNat % 128

/-- The groups of the packet of length `len` that BUF holds: BUF[2][6:0], ..., BUF[len - 2][6:0] (R173). -/
def State.bufGroups (s : State) (len : Nat) : List Group :=
  (List.range' 2 (len - 3)).map fun i => low7 (s.bufByte i)

/-- The first group and the further ones, as DECODE reads them. -/
theorem State.bufGroups_eq_cons (s : State) {len : Nat} (hl : 4 ≤ len) :
    s.bufGroups len = low7 (s.bufByte 2) :: (s.bufBytes 3 (len - 4)).map low7 := by
  rw [State.bufGroups, State.bufBytes, List.map_map, show len - 3 = (len - 4) + 1 by omega,
    List.range'_succ, List.map_cons]
  rfl

/-- Step 1 of DECODE by the sum in the integers: 128 divides 256 (R171). -/
theorem State.chkVerify_buf_iff (s : State) (len : Nat) :
    chkVerify (s.bufBytes 0 (len - 1)) (s.bufByte (len - 1)) = true ↔ s.ChecksumAgrees len := by
  rw [chkVerify_iff, ← byteSum, State.bufBytes, ← List.range_eq_range', State.ChecksumAgrees,
    Nat.mod_mod_of_dvd _ (by decide : 128 ∣ 256)]

/-- DECODE of a packet that fails its checksum (R171). -/
theorem decodeOp_of_disagree {s : State} {len : Nat} (h : ¬ s.ChecksumAgrees len) :
    decodeOp len s = (s.recordFailure, .csfail) := by
  rw [decodeOp, if_neg (mt (s.chkVerify_buf_iff len).1 h)]

/-- Step 5 of DECODE: POS_FC is 0x1B (R175). -/
theorem reportOf_eq_reportFor (axis : Axis) (fc : Fc) (value : Value) :
    reportOf axis fc value = reportFor axis fc value := rfl

/-- DECODE of a packet that passes its checksum (R172 to R176). -/
theorem decodeOp_of_agree {s : State} {len : Nat} (hl : 4 ≤ len) (h : s.ChecksumAgrees len) :
    decodeOp len s =
      let axis := low7 (s.bufByte 0)
      let fc := controlFc (s.bufByte 1)
      let value := valueOf fc (s.bufGroups len)
      (s.record axis fc value, reportFor axis fc value) := by
  rw [decodeOp, if_pos ((s.chkVerify_buf_iff len).2 h), s.bufGroups_eq_cons hl]
  simp only [decodeValue_eq_valueOf, reportOf_eq_reportFor]

/-- Settles O26: the call FEED makes records the failure and raises CSFAIL. -/
theorem checksumFailureWritesStatusOnly : Obligations.ChecksumFailureWritesStatusOnly := by
  intro s hc hl hfail
  rw [exec_decode, decodeCall_next hc rfl hl, decodeOp_of_disagree hfail, State.recordFailure, State.raise]

/-- Settles O27: the call FEED makes records the fields of the packet and raises their report. -/
theorem acceptedPacketIsRecordedAndReported : Obligations.AcceptedPacketIsRecordedAndReported := by
  intro s hc hl hpass
  refine ⟨low7 (s.bufByte 0), controlFc (s.bufByte 1), _, low7_toNat _, controlFc_toNat _, rfl, ?_⟩
  rw [exec_decode, decodeCall_next hc rfl hl, decodeOp_of_agree hl hpass]
  rfl

end Sys2Proof.Machine

/-! ## The family of the commands: the function-code rows, sent and received

A row is `packetOp` of its function code and of its way from the operand to ENCODE's argument (R201).
Sent, its bytes are those of O14 for that argument, so each command's statement is arithmetic on the
argument (R190 to R200); received, it is the arrival of its packet, which leaves only the kind of report
to its function code (R210, R211). -/

namespace Sys2Proof.Ref

open Sys2Proof.Machine

/-! ### The arguments of the commands -/

theorem clampInt_bounds (z : Int) : 1 ≤ clampInt z ∧ clampInt z ≤ 127 :=
  ⟨le_max_left 1 _, max_le (by decide) (min_le_left 127 z)⟩

/-- A clamped operand is in the supported range, so the mask loses nothing (R151, R200). -/
theorem wrap28_clampSetter (x : Value) : wrap28 (clampSetter x) = clampInt x.toInt := by
  have hclamp : (clampSetter x).toInt = clampInt x.toInt := clampSetter_toInt x
  obtain ⟨hlo, hhi⟩ := clampInt_bounds x.toInt
  rw [wrap28_of_range (by omega) (by omega), hclamp]

/-- A byte zero-extended is in the supported range, and not negative (R198, R199). -/
theorem wrap28_setWidth_byte (x : Byte) : wrap28 (x.setWidth 32) = x.toNat := by
  have hx := x.isLt
  rw [wrap28, BitVec.toInt_setWidth, Int.bmod_bmod_of_dvd (by decide)]
  exact Int.bmod_eq_of_le (by omega) (by omega)

/-! ### The packet of an argument -/

/-- Address, control and checksum bytes beside the groups (R60). -/
theorem packetOf_length (fc axis : Nat) (v : Int) : (packetOf fc axis v).length = groupsNeeded v + 3 := by
  simp only [packetOf, bodyOf, List.length_append, List.length_cons, List.length_map, lowGroups_length,
    List.length_nil]

/-- From 64 on a clamped operand needs a second group for its sign bit (R193 to R197). -/
theorem groupsNeeded_clampInt (z : Int) : groupsNeeded (clampInt z) = if z ≤ 63 then 1 else 2 := by
  obtain ⟨hlo, hhi⟩ := clampInt_bounds z
  have hz : clampInt z ≤ 63 ↔ z ≤ 63 := by rw [clampInt]; omega
  unfold groupsNeeded
  by_cases h : z ≤ 63
  · rw [if_pos ⟨by omega, hz.2 h⟩, if_pos h]
  · rw [if_neg fun hone => h (hz.1 hone.2), if_pos ⟨by omega, by omega⟩, if_neg h]

/-- The packet of function code 0 and argument 0: the sum of its first three bytes is the axis modulo 128
(R192). -/
theorem packetOf_zero (axis : Axis) : packetOf 0x00 axis.toNat 0 =
    [BitVec.ofNat 8 axis.toNat, 0x80, 0x80, BitVec.ofNat 8 (128 + axis.toNat)] := by
  have haxis := axis.isLt
  have hbody : bodyOf 0x00 axis.toNat (lowGroups (groupsNeeded 0) 0) =
      [BitVec.ofNat 8 axis.toNat, 0x80, 0x80] := rfl
  have hsum : byteSum [BitVec.ofNat 8 axis.toNat, 0x80, 0x80] = axis.toNat % 256 + 256 := rfl
  have hcheck : (axis.toNat % 256 + 256) % 128 = axis.toNat := by omega
  rw [packetOf, hbody, hsum, hcheck]
  rfl

/-! ### Which report a code raises -/

/-- No unnamed code is that of the position report (R66, R175). -/
theorem unnamedReceived_ne_position : ∀ row ∈ unnamedReceived, row.1 ≠ 0x1B := by
  decide

/-- The position report is decoded as signed (R8, R174). -/
theorem valueOf_posFc (data : List Group) : valueOf 0x1B data = BitVec.ofInt 32 (signedNumber data) := by
  rw [valueOf, decodesUnsigned_posFc, if_neg Bool.false_ne_true]

end Sys2Proof.Ref

namespace Sys2Proof.Machine

open Sys2Proof.Ref

/-! ### CLAMP -/

/-- Settles O13: the unit emits the clamped word, whose signed reading is the clamped integer. -/
theorem clampKeepsSetterRange : Obligations.ClampKeepsSetterRange := by
  intro x s
  have hunit : exec (.clamp x) s = .next (s.emitUnit (.value (clampSetter x))) := rfl
  rw [hunit, clampInt, ← clampSetter_toInt, BitVec.ofInt_toInt, State.emitUnit]

/-! ### Rows sent -/

/-- A row sent is the ENCODE of its argument, for an axis id that needs no mask (R154, R201). -/
theorem packetOp_send {α : Type} (fc : Fc) (toArg : α → Value) (axis : Axis) (operand : α) (s : State) :
    packetOp fc toArg (.send axis operand) s =
      .next { s with tx := s.tx ++ packetOf fc.toNat axis.toNat (wrap28 (toArg operand)) } := by
  have hencode : packetOp fc toArg (.send axis operand) s =
      exec (.encode fc (addressByte axis) (toArg operand)) s := rfl
  rw [hencode, encodeEmitsShortestPacket, ← low7_toNat, low7_addressByte]

/-- A list of sent rows that agrees row by row with `packetOp` and one way to the argument. -/
theorem exec_sent_of_mem {rows : List (Fc × (Axis → Value → Instr))} {toArg : Value → Value}
    (hrows : rows.map (fun row axis x => exec (row.2 axis x)) =
      rows.map (fun row axis x => packetOp row.1 toArg (.send axis x)))
    {row : Fc × (Axis → Value → Instr)} (hrow : row ∈ rows) (axis : Axis) (x : Value) (s : State) :
    exec (row.2 axis x) s =
      .next { s with tx := s.tx ++ packetOf row.1.toNat axis.toNat (wrap28 (toArg x)) } := by
  have hexec : exec (row.2 axis x) = packetOp row.1 toArg (.send axis x) :=
    congrFun (congrFun (List.map_inj_left.1 hrows row hrow) axis) x
  rw [hexec, packetOp_send]

/-- Settles O29: both rows hand their operand to ENCODE as it is. -/
theorem moveAndRotateSendTheirOperand : Obligations.MoveAndRotateSendTheirOperand :=
  fun axis x s => ⟨packetOp_send 0x01 id axis x s, packetOp_send 0x0A id axis x s⟩

/-- Settles O30: the argument is 0 for every axis, and its packet has one group. -/
theorem resetOriginSendsFourBytes : Obligations.ResetOriginSendsFourBytes := by
  intro axis s
  rw [← packetOf_zero]
  exact packetOp_send 0x00 (fun _ => 0) axis () s

/-- Settles O31: the clamp keeps the argument in range, and its number of groups is 1 up to 63 and 2 from
64. -/
theorem settersSendClampedOperand : Obligations.SettersSendClampedOperand := by
  intro row hrow axis x s
  constructor
  · rw [exec_sent_of_mem (rows := settersSent) (toArg := clampSetter) rfl hrow, wrap28_clampSetter]
  · rw [packetOf_length, groupsNeeded_clampInt]
    split <;> rfl

/-- Settles O32: both rows zero-extend their byte, which ENCODE's mask leaves. -/
theorem byteCommandsSendTheirByte : Obligations.ByteCommandsSendTheirByte := by
  intro axis x s
  rw [← wrap28_setWidth_byte]
  exact ⟨packetOp_send 0x07 (BitVec.setWidth 32) axis x s, packetOp_send 0x0E (BitVec.setWidth 32) axis x s⟩

/-! ### The codes with both directions stated -/

/-- Settles O33: received, the row is the arrival of its packet, and POS_FC is reported as POS and decoded
as signed; sent, its operand is the argument. -/
theorem positionReportBothDirections : Obligations.PositionReportBothDirections := by
  refine ⟨fun axis data check s h1 h4 => ?_, packetOp_send 0x1B id⟩
  obtain ⟨t, ht, harrives⟩ := receiveOp_arrives 0x1B axis check s h1 h4
  exact ⟨t, ht, harrives, valueOf_posFc data, fun v => if_pos rfl⟩

/-- Settles O34: received, a row is the arrival of its packet, and none of the 21 codes is the position's;
sent, its operand is the argument. -/
theorem unnamedCodesBothDirections : Obligations.UnnamedCodesBothDirections := by
  constructor
  · intro row hrow axis data check s h1 h4
    rw [eq_received_of_mem (rows := unnamedReceived) rfl hrow, exec_received]
    obtain ⟨t, ht, harrives⟩ := receiveOp_arrives row.1 axis check s h1 h4
    exact ⟨t, ht, harrives, fun v => if_neg (unnamedReceived_ne_position row hrow)⟩
  · intro row hrow axis x s
    exact exec_sent_of_mem (rows := unnamedSent) (toArg := id) rfl hrow axis x s

end Sys2Proof.Machine

/-! ## The family of the exceptions: the block never stops

What can refuse is a FEED at an illegal DLEN, a DECODE that FEED does not call, and an operand of other than
1 to 4 groups (R245; logs 10 and 11). The invariant rules out the first, well-formed operands the last, and
no move of the host decodes to either of the last two. -/

namespace Sys2Proof.Machine

/-! ### The function-code rows -/

/-- A packet of 1 to 4 groups is received in every state: its header declares a legal DLEN (R60, R123). -/
theorem receiveOp_next {data : List Group} (hg : groupsOk data = true) (fc : Fc) (axis : Axis)
    (check : BitVec 7) (s : State) : ∃ t, receiveOp fc axis data check s = .next t := by
  obtain ⟨h1, h4⟩ := (groupsOk_iff data).1 hg
  obtain ⟨t, ht, -⟩ := receiveOp_arrives fc axis check s h1 h4
  exact ⟨t, ht⟩

/-- A row with a well-formed form completes in every state, in both directions (R210, R211). -/
theorem packetOp_next {α : Type} (fc : Fc) (toArg : α → Value) {form : PktForm α}
    (hw : form.wellFormed = true) (s : State) : ∃ t, packetOp fc toArg form s = .next t := by
  cases form with
  | send axis operand => exact ⟨_, rfl⟩
  | recv axis data check => exact receiveOp_next hw fc axis check s

/-! ### Every operation is total -/

/-- Settles O47: FEED completes because the invariant makes DLEN legal, DECODE because it is the call FEED
makes, an unpacker and a row by their groups; the other operations ask nothing. -/
theorem wellFormedInstructionsComplete : Obligations.WellFormedInstructionsComplete := by
  intro i s hs hw hcall
  cases i
  case feed b => exact hs.legalDlen.feedOp_next b
  case decode len =>
    obtain ⟨hcount, hdlen⟩ := hcall len rfl
    exact ⟨_, decodeCall_next hcount hdlen ((lengthOk_iff len).1 hw).1⟩
  case vliUnpackS g => exact ⟨_, (exec_vliUnpackS g s).trans (if_pos hw)⟩
  case vliUnpackU g => exact ⟨_, (exec_vliUnpackU g s).trans (if_pos hw)⟩
  case reset | encode | chkGen | chkVerify | vliPack | clamp => exact ⟨_, rfl⟩
  all_goals exact packetOp_next _ _ hw s

/-- What a move of the host starts with completes: a pulse, a command, or a packet of 1 to 4 groups
(R70, R201, R60). -/
theorem State.Inv.exec_next_of_decode {s : State} (hs : s.Inv) {r : Request} {i : Instr}
    {rest : Option Request} (hd : decode r = .run i rest) : ∃ t, exec i s = .next t := by
  rcases decode_cases hd with rfl | ⟨b, rfl⟩ | ⟨fc, axis, arg, rfl⟩ | ⟨fc, axis, operand, rfl⟩ |
    ⟨fc, axis, data, check, hg, rfl⟩
  · exact ⟨_, rfl⟩
  · exact hs.legalDlen.feedOp_next b
  · exact ⟨_, rfl⟩
  · obtain ⟨arg, ht⟩ := exec_commanded fc axis operand s
    exact ⟨_, ht⟩
  · rw [exec_received]
    exact receiveOp_next hg fc axis check s

/-- Settles O46: a step holds the state, takes a move of no pulse, or runs the instruction the move starts
with, in a state that differs in the queue of moves alone, which `Inv` does not read. -/
theorem stepNeverStops : Obligations.StepNeverStops := by
  intro s hs hport
  cases hq : s.inputs with
  | nil => exact ⟨s, step_of_no_move hq⟩
  | cons r rs =>
    cases hd : decode r with
    | run i rest =>
      have hqueue : (s.withInputs (rest.toList ++ rs)).Inv := hs
      rw [step_of_run hq hd]
      exact hqueue.exec_next_of_decode hd
    | idle => exact ⟨_, step_of_idle hq hd⟩
    | rejected e => exact absurd hd (hport r (by simp [hq]) e)

end Sys2Proof.Machine

/-! ## The family of reset and hazards: RESET from any state -/

namespace Sys2Proof.Machine

/-- RESET completes in every state (R270). -/
theorem exec_reset (s : State) : exec .reset s = .next (resetOp s) := rfl

/-- After RESET no index of BUF is listed (R34; log 2). -/
theorem resetOp_get? (s : State) (i : Nat) : (resetOp s).buf.get? i = none := by
  rw [resetOp_buf, Memory.get?_nil]

/-- Settles O2: the state RESET gives is `resetOp s`, whose fields are read off one by one. -/
theorem resetClearsAssembly : Obligations.ResetClearsAssembly := by
  intro s
  exact ⟨resetOp s, exec_reset s,
    resetOp_count s, resetOp_dlen s, resetOp_status s, resetOp_get? s,
    resetOp_tx s, resetOp_events s, resetOp_unitOut s, resetOp_inputs s⟩

end Sys2Proof.Machine
